-- ==== Sys2Proof/Word.lean ====
section
/-!
DEFINITION. The byte and the byte sequence, the only data the block moves (00_scope.md R5, 10_state.md R16).
-/
namespace Sys2Proof

/-- A byte is 8 bits (10_state.md R16). -/
abbrev Byte := BitVec 8

/-- A frame, and any other buffer: a finite byte sequence whose length is known (00_scope.md glossary, R5). Byte 0 is
the head of the list. -/
abbrev Frame := List Byte

/-- `time`, `epoch` and `period` are signed 64-bit numbers of seconds (00_scope.md R4 `TIME_W`, 10_state.md R11); their
signed reading is `BitVec.toInt`. -/
abbrev Seconds := BitVec 64

end Sys2Proof
end

