-- ==== Sys2Proof/Machine/Bytes.lean ====
section
/-!
DEFINITION. The conversions between byte sequences and integers and the half-open slice (00_scope.md R5, R6). Every byte
order of the block is decided here, and it is big-endian (20_memory.md R25 to R27, R29).
-/
namespace Sys2Proof.Machine

/-- `BE_n(v)`: n bytes, most significant first (R6). Where R6 leaves it undefined (`v ≥ 256^n`) the high part is
dropped; every use in the model has `v < 256^n`. -/
def beBytes : Nat → Nat → Frame
  | 0, _ => []
  | n + 1, v => BitVec.ofNat 8 (v / 256 ^ n) :: beBytes n v

/-- `UBE(b)`: the unsigned big-endian reading, Σ b[i]·256^(n−1−i) (R6). -/
def ube : Frame → Nat
  | [] => 0
  | b :: bs => b.toNat * 256 ^ bs.length + ube bs

/-- `SBE(b)`: the two's complement reading, UBE(b) if b[0] < 128, else UBE(b) − 256^n (R6). -/
def sbe : Frame → Int
  | [] => 0
  | b :: bs =>
    if b.toNat < 128 then (ube (b :: bs) : Int)
    else (ube (b :: bs) : Int) - 256 ^ (b :: bs).length

/-- `buf[a .. b]`, half-open: bytes a, a+1, ..., b−1 (R5, 90_conflicts.md C6). -/
def slice (buf : Frame) (a b : Nat) : Frame := (buf.drop a).take (b - a)

/-- `buf[i]` (R5); used only at `i < len(buf)`. -/
def byteAt (buf : Frame) (i : Nat) : Byte := buf.getD i 0

/-- `MemRead(buf, off, n) = UBE(buf[off .. off+n])` (00_scope.md R7). Meaningful only when `off + n ≤ len(buf)`, which
holds at every use (20_memory.md R31). -/
def memRead (buf : Frame) (off n : Nat) : Nat := ube (slice buf off (off + n))

/-- `MemWrite(buf, off, n, v)`: `buf[off .. off+n] <- BE_n(v)` (00_scope.md R7). -/
def memWrite (buf : Frame) (off n v : Nat) : Frame := buf.take off ++ beBytes n v ++ buf.drop (off + n)

end Sys2Proof.Machine
end

