-- ==== Sys2Proof/Config.lean ====
section
/-!
DEFINITION. What is fixed for a run: the closed sets and the numbers of 00_scope.md R4, and the hash oracle's function
`KeyedHash`, which has no body (41_otp_engine.md R86, U7).

`CHANNEL_PROTOCOL` and `ORACLE_WIRE` of R4 are OPEN and "no rule reads it": the model holds neither (log 7). The widths
`TIME_W`, `DIGITS_W` and `KEYLEN_W` are in the types of `Instr` and in the two bytes of `keylen`.
-/
namespace Sys2Proof

/-- `ALG_SET` of R4, closed (30_encoding.md R53, 90_conflicts.md C2). -/
inductive Alg where
  | sha1 | sha256 | sha512
deriving DecidableEq, Repr

/-- `DIGITS_SET` of R4: 6 or 8, fixed (41_otp_engine.md R97, D28). -/
inductive Digits where
  | six | eight
deriving DecidableEq, Repr

/-- `KeyedHash : {SHA1, SHA256, SHA512} × Bytes × Bytes → Bytes`: selector, key, message (41_otp_engine.md R86). -/
abbrev Oracle := Alg → Frame → Frame → Frame

namespace Config

/-- `CTR_BYTES` of R4. -/
abbrev ctrBytes : Nat := 8

/-- `KEY_MAX` of R4. -/
abbrev keyMax : Nat := 65535

/-- `DEFAULT_EPOCH` of R4, an assembler default (30_encoding.md R62). -/
def defaultEpoch : Int := 0

/-- `DEFAULT_PERIOD` of R4, an assembler default (30_encoding.md R62). -/
def defaultPeriod : Int := 30

/-- `DEFAULT_DIGITS` of R4, an assembler default (30_encoding.md R62). -/
def defaultDigits : Int := 6

/-- The function the attached oracle computes, one and the same for the whole run (R86, R137). FREE VALUE: nothing
constrains it, not even the length contract of R88 (log 4, safe). -/
opaque keyedHash : Oracle

end Config

end Sys2Proof
end

