-- ==== Sys2Proof/Syntax.lean ====
section
/-!
DEFINITION. The two operations of 30_encoding.md R46, one constructor per row of spec/opcode_table.json.
-/
namespace Sys2Proof

/-- A decoded request (30_encoding.md R50). The fields are those of R48 and R49, `alg` and `digits` still raw bytes
("their legality is an operation matter"). `op` is the constructor and `keylen` is the length of `key`. -/
inductive Instr where
  /-- `CTRENC`, opcode 0x01 (40_counter_codec.md R70). -/
  | ctrenc (time epoch period : Seconds)
  /-- `GEN`, opcode 0x02 (41_otp_engine.md R85). -/
  | gen (alg digits : Byte) (ctr key : Frame)
deriving DecidableEq, Repr

end Sys2Proof
end

