-- ==== Sys2Proof/WellFormed.lean ====
section
/-!
DEFINITION. Which instructions a request frame can carry: the two bounds of 30_encoding.md R49 that the types of `Instr`
do not already hold.
-/
namespace Sys2Proof

/-- `ctr` is 8 bytes (30_encoding.md R49, R52). -/
def ctrFits (ctr : Frame) : Bool := decide (ctr.length = Config.ctrBytes)

/-- `key` is at most `KEY_MAX` bytes, what a 16-bit `keylen` can say (00_scope.md R4, 30_encoding.md R49; U18). -/
def keyFits (key : Frame) : Bool := decide (key.length ≤ Config.keyMax)

/-- The instruction has an encoding. Every decoded instruction is well formed. -/
def Instr.wellFormed : Instr → Bool
  | .ctrenc _ _ _ => true
  | .gen _ _ ctr key => ctrFits ctr && keyFits key

end Sys2Proof
end

