-- ==== Sys2Proof/Decode.lean ====
section
/-!
DEFINITION. `Decode` of 30_encoding.md R50, total on byte sequences, each illegal frame refused by the name of its row in
R54; the encoder of formats `C` and `G` (R48, R49); and the reading of an opcode-table word.
-/
namespace Sys2Proof

/-- The illegal encodings of 30_encoding.md R54, one constructor per row of its table. The block answers all of them
alike, with `[0xFF]` (60_exceptions.md R116). -/
inductive Illegal where
  /-- The frame is empty. -/
  | emptyFrame
  /-- Byte 0 is neither 0x01 nor 0x02. -/
  | opcode
  /-- Byte 0 is 0x01 and the length is not 25. -/
  | ctrencLength
  /-- Byte 0 is 0x02 and the length is below 13. -/
  | genHeader
  /-- Byte 0 is 0x02 and the length is not 13 + `keylen`. -/
  | genLength
deriving DecidableEq, Repr

/-- The opcode of `CTRENC` (30_encoding.md R46). -/
def opCtrenc : Byte := 0x01

/-- The opcode of `GEN` (30_encoding.md R46). -/
def opGen : Byte := 0x02

/-- `keylen = UBE(f[11 .. 13])` (30_encoding.md R52). -/
def keylenOf (f : Frame) : Nat := Machine.ube (Machine.slice f 11 13)

/-- A signed 64-bit field: `SBE(f[a .. a+8])` (30_encoding.md R52). -/
def secondsAt (f : Frame) (a : Nat) : Seconds := BitVec.ofInt 64 (Machine.sbe (Machine.slice f a (a + 8)))

/-- `Decode(f)` (30_encoding.md R50). -/
def decode (f : Frame) : Except Illegal Instr :=
  match f with
  | [] => .error .emptyFrame
  | op :: _ =>
    if op = opCtrenc then
      if f.length ≠ 25 then .error .ctrencLength
      else .ok (.ctrenc (secondsAt f 1) (secondsAt f 9) (secondsAt f 17))
    else if op = opGen then
      if f.length < 13 then .error .genHeader
      else if f.length ≠ 13 + keylenOf f then .error .genLength
      else .ok (.gen (Machine.byteAt f 1) (Machine.byteAt f 2) (Machine.slice f 3 11)
        (Machine.slice f 13 (13 + keylenOf f)))
    else .error .opcode

/-- The frame of an instruction: format `C` (30_encoding.md R48) or format `G` (R49). -/
def encode : Instr → Frame
  | .ctrenc time epoch period =>
    opCtrenc :: (Machine.beBytes 8 time.toNat ++ Machine.beBytes 8 epoch.toNat ++ Machine.beBytes 8 period.toNat)
  | .gen alg digits ctr key => opGen :: alg :: digits :: (ctr ++ Machine.beBytes 2 key.length ++ key)

/-- The bytes of an opcode-table word: byte 0 is its low 8 bits, the next byte the 8 bits above, and so on. -/
def tableBytes : Nat → Nat → Frame
  | 0, _ => []
  | n + 1, w => BitVec.ofNat 8 w :: tableBytes n (w / 256)

/-- `f` with zero bytes after it up to length n. -/
def padTo (n : Nat) (f : Frame) : Frame := f ++ List.replicate (n - f.length) 0

/-- The request frame of an opcode-table word of `nbits` bits: its bytes, byte 0 first, and after them zero bytes up to
the length the operation's format demands (25 bytes, or 13 + `keylen`; 30_encoding.md R51). -/
def tableFrame (nbits w : Nat) : Frame :=
  let bytes := tableBytes ((nbits + 7) / 8) w
  match bytes with
  | [] => []
  | op :: _ =>
    if op = opCtrenc then padTo 25 bytes
    else if op = opGen then padTo (13 + keylenOf (padTo 13 bytes)) bytes
    else bytes

/-- The instruction the decoder reads from an opcode-table word, none where it refuses. -/
def decodeTableWord (nbits w : Nat) : Option Instr := (decode (tableFrame nbits w)).toOption

end Sys2Proof
end

