-- ==== Sys2Proof/Machine/State.lean ====
section
/-!
DEFINITION. The state of one instance: `(phase, REQ, RSP, HREQ, HRSP)` of 10_state.md R22, and the model's own list of
turns; the reset state (R21); the reasons a step could stop.
-/
namespace Sys2Proof.Machine

/-- The phase of the transaction in flight (10_state.md R17). It holds `alg` and `digits` only: not the key, not the
counter (R19). -/
inductive Phase where
  | idle
  | hashWait (alg : Alg) (digits : Digits)
deriving DecidableEq, Repr

/-- The oracle request record `(alg, key, msg)` on `HREQ` (41_otp_engine.md R87). -/
structure OracleRequest where
  alg : Alg
  key : Frame
  msg : Frame
deriving DecidableEq, Repr

/-- One turn of one agent: the steps of 10_state.md R23, and the reset event of 70_reset_and_hazards.md R135. -/
inductive Turn where
  /-- The block: ACCEPT or FINISH, whichever its phase allows. -/
  | block
  /-- The hash oracle: ANSWER. -/
  | oracle
  /-- The host: SUBMIT the frame. -/
  | submit (f : Frame)
  /-- The host: COLLECT. -/
  | collect
  /-- The reset event, from outside the block. -/
  | reset
deriving DecidableEq, Repr

/-- The machine. The first five fields are the spec's whole state (10_state.md R22). Each channel is a queue with its
head first: `send` appends at the tail, `recv` removes at the head (R15). -/
structure State where
  /-- `phase` (R17). -/
  phase : Phase
  /-- `REQ`, host to block (R15). -/
  req : List Frame
  /-- `RSP`, block to host (R15). -/
  rsp : List Frame
  /-- `HREQ`, block to oracle (R15, 41_otp_engine.md R87). -/
  hreq : List OracleRequest
  /-- `HRSP`, oracle to block (R15, 41_otp_engine.md R88). -/
  hrsp : List Frame
  /-- DESIGN CHOICE (log 1 to 3). The model's own field, not the spec's: the turns the agents take next, first one
  first. It stands for "Any enabled step may be taken next; nothing fixes the relative speed of the agents" (R23). When
  it is empty only the block moves. -/
  turns : List Turn
deriving DecidableEq, Repr

/-- The state after reset: `phase = IDLE`, all four channels empty (10_state.md R21, 70_reset_and_hazards.md R135), and
no turn given to an agent outside the block (DESIGN CHOICE, log 1). -/
def State.reset : State :=
  { phase := .idle, req := [], rsp := [], hreq := [], hrsp := [], turns := [] }

/-- Why the machine stops with a fault: never. It has no constructor, so no step can answer a fault: an error is a
response frame, after which "the block is ready for the next request exactly as after a success" (60_exceptions.md
R118), and "No error is fatal to the process" (R119). -/
inductive Fault where
deriving DecidableEq, Repr

/-- Why the machine refuses an instruction. -/
inductive Refusal where
  /-- Raised by an arm of `exec` whose instruction has no meaning yet; safe. No arm raises it: both operations have
  their meaning. -/
  | notModelled (mnemonic : String)
deriving DecidableEq, Repr

end Sys2Proof.Machine
end

