-- ==== Sys2Proof/Machine/Flags.lean ====
section
/-!
DEFINITION. The block has no flags (10_state.md R13). The one condition an operation reports is the status byte of its
response: the errors, their codes, and the response frames they head (60_exceptions.md R110; 30_encoding.md R55 to R57).
-/
namespace Sys2Proof.Machine

/-- The errors (60_exceptions.md R110). -/
inductive Error where
  /-- `CTRENC` with `time < epoch` (R111). -/
  | invalidTime
  /-- `GEN` with `digits` not 6 and not 8 (R112). -/
  | unsupportedDigits
  /-- `GEN` with an unrecognized `alg` (R113). -/
  | unsupportedAlgorithm
  /-- `CTRENC` with `period ≤ 0`, `GEN` with `keylen` = 0 (R114). -/
  | invalidConfig
  /-- An oracle answer of the wrong length (R115). -/
  | hashOracle
  /-- A request frame that does not decode (R116). -/
  | illegalRequest
deriving DecidableEq, Repr

/-- `OK` (60_exceptions.md R110). -/
def statusOk : Byte := 0x00

/-- The status code of an error (60_exceptions.md R110). -/
def errorCode : Error → Byte
  | .invalidTime => 0x01
  | .unsupportedDigits => 0x02
  | .unsupportedAlgorithm => 0x03
  | .invalidConfig => 0x04
  | .hashOracle => 0x05
  | .illegalRequest => 0xFF

/-- Format `RE`: the one byte of the code and nothing else (30_encoding.md R55, 60_exceptions.md R117). -/
def errorFrame (e : Error) : Frame := [errorCode e]

/-- Formats `RC` and `RG`: the byte 0x00 and the result fields (30_encoding.md R56, R57). -/
def successFrame (result : Frame) : Frame := statusOk :: result

/-- The response frame of an operation that ends in an error or in its result fields. -/
def responseFrame : Except Error Frame → Frame
  | .error e => errorFrame e
  | .ok result => successFrame result

end Sys2Proof.Machine
end

