-- ==== Sys2Proof/Machine/Ops.lean ====
section
/-!
DEFINITION. The named operations over the state: sending on a channel, ending a transaction, and raising an error
(10_state.md R15, R23; 00_scope.md R7; 60_exceptions.md R118). The buffer primitives `MemRead` and `MemWrite` of R7 stand
in Machine/Bytes.lean.
-/
namespace Sys2Proof.Machine

/-- `send(RSP, r)` and `phase <- IDLE`: the end of every transaction, success or error. At an ACCEPT the phase was and
stays `IDLE`; at a FINISH it goes from `HASH_WAIT` to `IDLE` (10_state.md R23, 60_exceptions.md R118 item 4). -/
def sendResponse (r : Frame) (s : State) : State :=
  { s with rsp := s.rsp ++ [r], phase := .idle }

/-- `raise e`: the operation ends, the response is the one-byte frame of the error's code, no result field is produced,
nothing is saved, and the block is ready for the next request (00_scope.md R7, 60_exceptions.md R118). This is the
block's whole analogue of taking an exception, and there is no return from one (R119). -/
def raise (e : Error) (s : State) : State := sendResponse (errorFrame e) s

/-- The operation ends well: the status byte 0x00 and the result fields (30_encoding.md R56, R57). -/
def complete (result : Frame) (s : State) : State := sendResponse (successFrame result) s

/-- The end of an operation whose outcome is an error or its result fields. -/
def conclude (outcome : Except Error Frame) (s : State) : State :=
  match outcome with
  | .error e => raise e s
  | .ok result => complete result s

/-- `send(HREQ, r); phase <- HASH_WAIT(alg, dig)`: the one oracle request of a valid `GEN` (10_state.md R23,
41_otp_engine.md R87, R99). The key and the counter go into the request and are kept nowhere else (R19). -/
def askOracle (r : OracleRequest) (digits : Digits) (s : State) : State :=
  { s with hreq := s.hreq ++ [r], phase := .hashWait r.alg digits }

end Sys2Proof.Machine
end

