-- ==== Sys2Proof/Machine/Operands.lean ====
section
/-!
DEFINITION. What the raw operands of a request stand for: the hash selector and its digest size (30_encoding.md R53) and
the digit count (41_otp_engine.md R97).
-/
namespace Sys2Proof.Machine

/-- The hash selector codes (30_encoding.md R53); `none` is "unrecognized". -/
def selector (code : Byte) : Option Alg :=
  if code = 0x01 then some .sha1
  else if code = 0x02 then some .sha256
  else if code = 0x03 then some .sha512
  else none

/-- The code of a selector (30_encoding.md R53). -/
def selectorCode : Alg → Byte
  | .sha1 => 0x01
  | .sha256 => 0x02
  | .sha512 => 0x03

/-- `digestSize`: the length of the oracle's answer in bytes (30_encoding.md R53, 41_otp_engine.md R88). -/
def digestSize : Alg → Nat
  | .sha1 => 20
  | .sha256 => 32
  | .sha512 => 64

/-- The legal digit counts; every other byte, 7 and 9 included, is refused (41_otp_engine.md R97). -/
def digitCount (digits : Byte) : Option Digits :=
  if digits = 6 then some .six
  else if digits = 8 then some .eight
  else none

/-- The number a digit count stands for. -/
def digitsNat : Digits → Nat
  | .six => 6
  | .eight => 8

end Sys2Proof.Machine
end

