-- ==== Sys2Proof/Machine/CounterCodec.lean ====
section
/-!
DEFINITION. The Counter Codec, operation `CTRENC` (40_counter_codec.md R70 to R78).
-/
namespace Sys2Proof.Machine

/-- `t = floor((time − epoch) / period)` on exact integers, for `time ≥ epoch` and `period > 0` (40_counter_codec.md
R71, R76): nothing wraps, and truncating and floor division agree there (R77). -/
def counterValue (time epoch period : Int) : Nat := (time - epoch).toNat / period.toNat

/-- `ExecCtrenc`: the error, or the 8 bytes of `rsp.ctr` (40_counter_codec.md R70). `InvalidTimeError` comes first
(R74), and it tests the operands, not the quotient (R72). -/
def ctrencOutcome (time epoch period : Seconds) : Except Error Frame :=
  if time.toInt < epoch.toInt then .error .invalidTime
  else if period.toInt ≤ 0 then .error .invalidConfig
  else .ok (memWrite (List.replicate 8 0) 0 8 (counterValue time.toInt epoch.toInt period.toInt))

/-- `CTRENC`: the response is sent, no oracle request is, and nothing is kept (40_counter_codec.md R70, R78). -/
def execCtrenc (time epoch period : Seconds) (s : State) : Host.Outcome State Fault Refusal :=
  .next (conclude (ctrencOutcome time epoch period) s)

end Sys2Proof.Machine
end

