-- ==== Sys2Proof/Machine/OtpEngine.lean ====
section
/-!
DEFINITION. The HOTP/TOTP Engine, operation `GEN` (41_otp_engine.md R85, R90 to R107): validation before the oracle's
answer, dynamic truncation and rendering after it.
-/
namespace Sys2Proof.Machine

/-- `GenValidate`: digits, then alg, then key length; the first failure is reported (41_otp_engine.md R96,
60_exceptions.md R120). -/
def genValidate (alg digits : Byte) (key : Frame) : Except Error (Alg × Digits) :=
  match digitCount digits with
  | none => .error .unsupportedDigits
  | some d =>
    match selector alg with
    | none => .error .unsupportedAlgorithm
    | some a => if key.length = 0 then .error .invalidConfig else .ok (a, d)

/-- `GEN`, the half that runs when the frame is accepted: a refused request gets its error and sends nothing to the
oracle; a valid one sends exactly one oracle request and waits (10_state.md R23, 41_otp_engine.md R99). -/
def execGen (alg digits : Byte) (ctr key : Frame) (s : State) : Host.Outcome State Fault Refusal :=
  match genValidate alg digits key with
  | .error e => .next (raise e s)
  | .ok (a, d) => .next (askOracle { alg := a, key := key, msg := ctr } d s)

/-- Step 2: `offset = mac[len(mac) − 1] & 0x0F` (41_otp_engine.md R91). -/
def truncOffset (mac : Frame) : Nat := memRead mac (mac.length - 1) 1 &&& 0x0F

/-- Step 2: `p`, the 4 bytes at the offset, big-endian and unsigned (41_otp_engine.md R92, 20_memory.md R26). -/
def truncWindow (mac : Frame) : Nat := memRead mac (truncOffset mac) 4

/-- Step 3: `snum = p & 0x7FFFFFFF` (41_otp_engine.md R93). -/
def truncSnum (mac : Frame) : Nat := truncWindow mac &&& 0x7FFFFFFF

/-- Step 4: `code = snum mod 10^digits` (41_otp_engine.md R94). -/
def otpValue (d : Digits) (mac : Frame) : Nat := truncSnum mac % 10 ^ digitsNat d

/-- Step 5: exactly n characters, most significant first, each the byte 0x30 + digit (41_otp_engine.md R95,
30_encoding.md R57). -/
def decimalChars : Nat → Nat → Frame
  | 0, _ => []
  | n + 1, v => BitVec.ofNat 8 (0x30 + v / 10 ^ n % 10) :: decimalChars n v

/-- `GenFinish`: the error, or `ndigits` and `code` (41_otp_engine.md R100, R102; 30_encoding.md R57). -/
def genFinish (alg : Alg) (d : Digits) (mac : Frame) : Except Error Frame :=
  if mac.length ≠ digestSize alg then .error .hashOracle
  else .ok (BitVec.ofNat 8 (digitsNat d) :: decimalChars (digitsNat d) (otpValue d mac))

/-- `GEN`, the half that runs when the oracle's answer arrives: the response is sent and the phase goes back to `IDLE`
(10_state.md R23 FINISH). `alg` and `digits` come from the phase (41_otp_engine.md R100). -/
def finishGen (alg : Alg) (d : Digits) (mac : Frame) (s : State) : State := conclude (genFinish alg d mac) s

end Sys2Proof.Machine
end

