-- ==== Sys2Proof/Machine/Dispatch.lean ====
section
/-!
DEFINITION. One arm per operation of 30_encoding.md R46: what an accepted request does.
-/
namespace Sys2Proof.Machine

/-- The effect of an accepted, decoded request (the Ctrenc and Gen cases of ACCEPT, 10_state.md R23). -/
def exec (i : Instr) (s : State) : Host.Outcome State Fault Refusal :=
  match i with
  | .ctrenc time epoch period => Sys2Proof.Machine.execCtrenc time epoch period s
  | .gen alg digits ctr key => Sys2Proof.Machine.execGen alg digits ctr key s

end Sys2Proof.Machine
end

