-- ==== Sys2Proof/Machine/HashOracle.lean ====
section
/-!
DEFINITION. The hash oracle as the block meets it: its answer to a request (10_state.md R23 ANSWER), its length contract
(41_otp_engine.md R88), and the HMAC shape of the intended oracle (R89). The block computes no hash.
-/
namespace Sys2Proof.Machine

/-- The answer `KeyedHash(alg, key, msg)` to an oracle request (41_otp_engine.md R90, 10_state.md R23). -/
def oracleAnswer (H : Oracle) (r : OracleRequest) : Frame := H r.alg r.key r.msg

/-- The oracle's contract: every answer is a full-length digest (41_otp_engine.md R88). The model assumes it nowhere;
a statement that needs it takes it as a premise. -/
def OracleContract (H : Oracle) : Prop := ∀ alg key msg, (H alg key msg).length = digestSize alg

/-- PRESUMED (log 10; 41_otp_engine.md R89 marks it as general knowledge, K1). HMAC over an unspecified hash function of
block size B: `H((k' xor opad) ∥ H((k' xor ipad) ∥ m))`. -/
def hmac (hash : Frame → Frame) (B : Nat) (key msg : Frame) : Frame :=
  let k := if key.length > B then hash key else key
  let k' := k ++ List.replicate (B - k.length) 0
  hash (k'.map (· ^^^ 0x5c) ++ hash (k'.map (· ^^^ 0x36) ++ msg))

/-- PRESUMED (log 10). The intended oracle over the three SHA functions, which no file of the spec defines: they are
arguments (41_otp_engine.md R89). No step of the machine reads this. -/
def intendedOracle (sha1 sha256 sha512 : Frame → Frame) : Oracle
  | .sha1 => hmac sha1 64
  | .sha256 => hmac sha256 64
  | .sha512 => hmac sha512 128

end Sys2Proof.Machine
end

