-- ==== Sys2Proof/Machine/Agents.lean ====
section
/-!
DEFINITION. The steps of the agents (10_state.md R23), the reset event (70_reset_and_hazards.md R135), one step of the
whole machine for a given oracle, and the atomic view `Exec` (10_state.md R24).

The oracle H is an argument everywhere ("A model takes KeyedHash ... as an argument", 00_scope.md R4); Machine/Step.lean
gives it the opaque function of Config.
-/
namespace Sys2Proof.Machine

/-- ACCEPT, after `f <- recv(REQ)`: an illegal frame is answered `[0xFF]`, a legal one is executed (10_state.md R23). -/
def acceptFrame (f : Frame) (s : State) : Host.Outcome State Fault Refusal :=
  match decode f with
  | .error _ => .next (raise .illegalRequest s)
  | .ok i => exec i s

/-- The block's turn. ACCEPT when `IDLE` and a request waits; FINISH when `HASH_WAIT` and an answer waits; else no step
of the block is enabled and nothing changes (10_state.md R23). There is no time-out (70_reset_and_hazards.md R143) and
no request is accepted in `HASH_WAIT` (R142). -/
def blockTurn (s : State) : Host.Outcome State Fault Refusal :=
  match s.phase with
  | .idle =>
    match s.req with
    | [] => .next s
    | f :: fs => acceptFrame f { s with req := fs }
  | .hashWait alg d =>
    match s.hrsp with
    | [] => .next s
    | mac :: macs => .next (finishGen alg d mac { s with hrsp := macs })

/-- The oracle's turn: ANSWER the oldest request (10_state.md R23, 41_otp_engine.md R88). -/
def oracleTurn (H : Oracle) (s : State) : State :=
  match s.hreq with
  | [] => s
  | r :: rs => { s with hreq := rs, hrsp := s.hrsp ++ [oracleAnswer H r] }

/-- The host's SUBMIT: any byte sequence, at any time (10_state.md R23, 70_reset_and_hazards.md R148). -/
def submitFrame (f : Frame) (s : State) : State := { s with req := s.req ++ [f] }

/-- The host's COLLECT: the oldest response leaves `RSP` (10_state.md R23). -/
def collectFrame (s : State) : State := { s with rsp := s.rsp.tail }

/-- The reset event: the block and its four channels; what was in flight is lost without a response
(70_reset_and_hazards.md R135, R136). The agents' turns to come are not the instance's and stay (log 5). -/
def resetInstance (s : State) : State := { State.reset with turns := s.turns }

/-- One turn of one agent. -/
def takeTurn (H : Oracle) (t : Turn) (s : State) : Host.Outcome State Fault Refusal :=
  match t with
  | .block => blockTurn s
  | .oracle => .next (oracleTurn H s)
  | .submit f => .next (submitFrame f s)
  | .collect => .next (collectFrame s)
  | .reset => .next (resetInstance s)

/-- One step of the machine: the agent whose turn is first takes it; with no turn listed, the block has the turn
(DESIGN CHOICE, log 1 to 3). -/
def stepWith (H : Oracle) (s : State) : Host.Outcome State Fault Refusal :=
  match s.turns with
  | [] => blockTurn s
  | t :: ts => takeTurn H t { s with turns := ts }

/-- `n` steps, stopping at the first fault or refusal. -/
def runWith (H : Oracle) : Nat → State → Host.Outcome State Fault Refusal
  | 0, s => .next s
  | n + 1, s =>
    match stepWith H s with
    | .next t => runWith H n t
    | .fault r => .fault r
    | .refused r => .refused r

/-- `Exec` of a decoded request: its response frame as a function of the request and the oracle alone (10_state.md
R24). -/
def atomicResponse (H : Oracle) : Instr → Frame
  | .ctrenc time epoch period => responseFrame (ctrencOutcome time epoch period)
  | .gen alg digits ctr key =>
    match genValidate alg digits key with
    | .error e => errorFrame e
    | .ok (a, d) => responseFrame (genFinish a d (H a key ctr))

/-- `Exec(f)` (10_state.md R24). -/
def atomicExec (H : Oracle) (f : Frame) : Frame :=
  match decode f with
  | .error _ => errorFrame .illegalRequest
  | .ok i => atomicResponse H i

/-- The state in which the very next step accepts the frame f: the phase is `IDLE`, f is the head of `REQ`, and it is
the block's turn (log 6). -/
def placeRequest (f : Frame) (s : State) : State :=
  { s with phase := .idle, req := f :: s.req, turns := .block :: s.turns }

end Sys2Proof.Machine
end

