-- ==== Sys2Proof/Machine/Step.lean ====
section
/-!
DEFINITION. The step of the machine: that of Machine/Agents.lean with the oracle of Config.
-/
namespace Sys2Proof.Machine

/-- One step (10_state.md R23), with `KeyedHash` the opaque function of Config (41_otp_engine.md R86). -/
def step (s : State) : Host.Outcome State Fault Refusal := stepWith Config.keyedHash s

/-- `s` with the frame of an opcode-table word where the next step accepts it (log 6). -/
def State.withFetchWord (s : State) (nbits w : Nat) : State := placeRequest (tableFrame nbits w) s

end Sys2Proof.Machine
end

