-- ==== Sys2Proof/Machine/Assembler.lean ====
section
/-!
DEFINITION. The host side of 30_encoding.md section 6: the assembler's lines and their text (R60), the defaults (R62),
and the pseudo-instructions HOTP and TOTP (R63). None of it is known to the block; responses come from the atomic view
of 10_state.md R24.
-/
namespace Sys2Proof.Machine

/-- The `alg` operand: a selector's name, or `0xNN`, "the byte NN in the alg field unchanged" (30_encoding.md R60). -/
inductive AlgOperand where
  | name (a : Alg)
  | code (b : Byte)
deriving DecidableEq, Repr

/-- The `ctr` operand: bytes, or `$ctr` (30_encoding.md R60). -/
inductive CtrOperand where
  | bytes (b : Frame)
  | lastCtr
deriving DecidableEq, Repr

/-- One line of a program (30_encoding.md R60, R63); `none` is an omitted operand. -/
inductive Line where
  | ctrenc (time : Int) (epoch period : Option Int)
  | gen (alg : AlgOperand) (key : Frame) (ctr : CtrOperand) (digits : Option Int)
  | hotp (alg : AlgOperand) (key : Frame) (count : Nat) (digits : Option Int)
  | totp (alg : AlgOperand) (key : Frame) (time : Int) (epoch period digits : Option Int)
deriving DecidableEq, Repr

/-- The `alg` byte of an operand (30_encoding.md R53, R60). -/
def algByte : AlgOperand → Byte
  | .name a => selectorCode a
  | .code b => b

/-- An integer operand of `CTRENC` "must lie in −2^63 to 2^63 − 1 ... else the assembler rejects the line" (30_encoding.md
R60). -/
def asmSeconds (v : Int) : Option Seconds :=
  if -2 ^ 63 ≤ v ∧ v < 2 ^ 63 then some (BitVec.ofInt 64 v) else none

/-- `digits` must lie in 0 to 255 (30_encoding.md R60). -/
def asmDigits (v : Int) : Option Byte :=
  if 0 ≤ v ∧ v ≤ 255 then some (BitVec.ofInt 8 v) else none

/-- A key's length must be 0 to 65535 (30_encoding.md R60). -/
def asmKey (key : Frame) : Option Frame := if keyFits key then some key else none

/-- The request of a `CTRENC` line, omitted operands taking their defaults (30_encoding.md R60, R62). -/
def assembleCtrenc (time : Int) (epoch period : Option Int) : Option Instr :=
  (asmSeconds time).bind fun t =>
  (asmSeconds (epoch.getD Config.defaultEpoch)).bind fun e =>
  (asmSeconds (period.getD Config.defaultPeriod)).bind fun p =>
  some (.ctrenc t e p)

/-- The request of a `GEN` line but for its counter, omitted `digits` taking its default (30_encoding.md R60, R62). -/
def assembleGen (alg : AlgOperand) (key : Frame) (digits : Option Int) : Option (Frame → Instr) :=
  (asmKey key).bind fun k =>
  (asmDigits (digits.getD Config.defaultDigits)).bind fun d =>
  some fun ctr => .gen (algByte alg) d ctr k

/-- The 8 counter bytes: written out, or "the ctr field of the most recent RC response in the program" (30_encoding.md
R60). `$ctr` before any such response is rejected (DESIGN CHOICE, log 9). -/
def resolveCtr (last : Option Frame) : CtrOperand → Option Frame
  | .bytes b => if ctrFits b then some b else none
  | .lastCtr => last

/-- `HOTP ... ==> GEN ... ctr=hex:<BE_8(count)>` for a count of 0 to 2^64 − 1 (30_encoding.md R63). -/
def expandHotp (alg : AlgOperand) (key : Frame) (count : Nat) (digits : Option Int) : Option Line :=
  if count < 2 ^ 64 then some (.gen alg key (.bytes (beBytes 8 count)) digits) else none

/-- The `ctr` field of a response if it is an `RC` frame, which its length and status tell (30_encoding.md R56 and the
paragraph after R57). -/
def rcCounter (r : Frame) : Option Frame :=
  match r with
  | [] => none
  | status :: ctr => if status = statusOk ∧ ctr.length = 8 then some ctr else none

/-- What running one line did: the frames submitted, the responses to them in the same order, and the counter `$ctr`
stands for afterwards. -/
structure LineRun where
  requests : List Frame
  responses : List Frame
  lastCtr : Option Frame
deriving DecidableEq, Repr

/-- One request is submitted and its response collected (10_state.md R24). -/
def runRequest (H : Oracle) (last : Option Frame) (i : Instr) : LineRun :=
  let r := atomicExec H (encode i)
  { requests := [encode i], responses := [r], lastCtr := (rcCounter r).or last }

/-- One run after another. -/
def LineRun.append (a b : LineRun) : LineRun :=
  { requests := a.requests ++ b.requests, responses := a.responses ++ b.responses, lastCtr := b.lastCtr }

/-- A `GEN` line is run. -/
def runGen (H : Oracle) (last : Option Frame) (alg : AlgOperand) (key : Frame) (ctr : CtrOperand)
    (digits : Option Int) : Option LineRun :=
  (assembleGen alg key digits).bind fun g =>
  (resolveCtr last ctr).bind fun c =>
  some (runRequest H last (g c))

/-- `TOTP`: a `CTRENC`; if its response is an error the host stops and that response is the result; else a `GEN` with
`$ctr` (30_encoding.md R63). -/
def runTotp (H : Oracle) (last : Option Frame) (alg : AlgOperand) (key : Frame) (time : Int)
    (epoch period digits : Option Int) : Option LineRun :=
  (assembleCtrenc time epoch period).bind fun i =>
  (assembleGen alg key digits).bind fun g =>
  let first := runRequest H last i
  match rcCounter (atomicExec H (encode i)) with
  | none => some first
  | some ctr => some (first.append (runRequest H first.lastCtr (g ctr)))

/-- One line is run; `none` is a line the assembler rejects (30_encoding.md R60, R63). -/
def runLine (H : Oracle) (last : Option Frame) : Line → Option LineRun
  | .ctrenc time epoch period => (assembleCtrenc time epoch period).map (runRequest H last)
  | .gen alg key ctr digits => runGen H last alg key ctr digits
  | .hotp alg key count digits =>
    match expandHotp alg key count digits with
    | some (.gen a k c d) => runGen H last a k c d
    | _ => none
  | .totp alg key time epoch period digits => runTotp H last alg key time epoch period digits

/-- A program, line after line, from a state of `$ctr`. R60 says only that "the assembler rejects the line"; that a
rejected line leaves the whole program without a run (`none`), the lines before it included, is the model's (DESIGN
CHOICE, log 16). -/
def runProgram (H : Oracle) : Option Frame → List Line → Option LineRun
  | last, [] => some { requests := [], responses := [], lastCtr := last }
  | last, l :: ls =>
    (runLine H last l).bind fun a =>
    (runProgram H a.lastCtr ls).map fun b => a.append b

/-! The text of a line (30_encoding.md R60). -/

/-- The text cut at every `sep` that stands outside double quotes (DESIGN CHOICE, log 9, 17). -/
def splitOutside (sep : Char) : Bool → List Char → List (List Char)
  | _, [] => [[]]
  | quoted, c :: cs =>
    let rest := splitOutside sep (if c = '"' then !quoted else quoted) cs
    if c = sep && !quoted then [] :: rest
    else match rest with
      | [] => [[c]]
      | w :: ws => (c :: w) :: ws

/-- The text without white space at its ends. -/
def trimText (cs : List Char) : List Char :=
  ((cs.dropWhile Char.isWhitespace).reverse.dropWhile Char.isWhitespace).reverse

/-- A digit of base 10 or 16. -/
def digitValue (base : Nat) (c : Char) : Option Nat :=
  let v :=
    if '0' ≤ c ∧ c ≤ '9' then c.toNat - '0'.toNat
    else if 'a' ≤ c ∧ c ≤ 'f' then c.toNat - 'a'.toNat + 10
    else if 'A' ≤ c ∧ c ≤ 'F' then c.toNat - 'A'.toNat + 10
    else base
  if v < base then some v else none

/-- The value of digits after the value read so far. -/
def numeralFrom (base : Nat) : Nat → List Char → Option Nat
  | acc, [] => some acc
  | acc, c :: cs => (digitValue base c).bind fun v => numeralFrom base (acc * base + v) cs

/-- A numeral of at least one digit. -/
def numeral (base : Nat) (cs : List Char) : Option Nat := if cs = [] then none else numeralFrom base 0 cs

/-- `<int>`: "a decimal integer with optional leading -, or 0x hexadecimal" (30_encoding.md R60). -/
def parseInt : List Char → Option Int
  | '-' :: cs => (numeral 10 cs).map fun n => -(n : Int)
  | '0' :: 'x' :: cs => (numeral 16 cs).map fun n => (n : Int)
  | cs => (numeral 10 cs).map fun n => (n : Int)

/-- `<int>` that must not be negative: the count of `HOTP` (30_encoding.md R63). -/
def parseNat (cs : List Char) : Option Nat :=
  match parseInt cs with
  | some (.ofNat n) => some n
  | _ => none

/-- An even number of hexadecimal digits. -/
def parseHexBytes : List Char → Option Frame
  | [] => some []
  | [_] => none
  | a :: b :: cs =>
    (numeral 16 [a, b]).bind fun v => (parseHexBytes cs).map fun bs => BitVec.ofNat 8 v :: bs

/-- The characters of `ascii:"..."` after the opening quote (30_encoding.md R60). R60 gives no way to write a double quote
among them: the first one closes the text, and anything after it rejects the line (DESIGN CHOICE, log 17). -/
def parseAscii : List Char → Option Frame
  | [] => none
  | c :: cs =>
    if c = '"' then (if cs = [] then some [] else none)
    else if c.toNat < 128 then (parseAscii cs).map fun bs => BitVec.ofNat 8 c.toNat :: bs
    else none

/-- `<bytes>`: `hex:` or `ascii:"..."` (30_encoding.md R60). -/
def parseBytes : List Char → Option Frame
  | 'h' :: 'e' :: 'x' :: ':' :: cs => parseHexBytes cs
  | 'a' :: 's' :: 'c' :: 'i' :: 'i' :: ':' :: '"' :: cs => parseAscii cs
  | _ => none

/-- `<8 bytes>`: `hex:` with exactly 16 digits, or `$ctr` (30_encoding.md R60). -/
def parseCtr (cs : List Char) : Option CtrOperand :=
  if cs = "$ctr".toList then some .lastCtr
  else match cs with
    | 'h' :: 'e' :: 'x' :: ':' :: ds => if ds.length = 16 then (parseHexBytes ds).map .bytes else none
    | _ => none

/-- `<SHA1|SHA256|SHA512|0xNN>` (30_encoding.md R60). -/
def parseAlg (cs : List Char) : Option AlgOperand :=
  if cs = "SHA1".toList then some (.name .sha1)
  else if cs = "SHA256".toList then some (.name .sha256)
  else if cs = "SHA512".toList then some (.name .sha512)
  else match cs with
    | ['0', 'x', a, b] => (numeral 16 [a, b]).map fun v => .code (BitVec.ofNat 8 v)
    | _ => none

/-- The operands of a line, by name. -/
abbrev Operands := List (List Char × List Char)

/-- `name=value`, cut at the first `=`. -/
def parsePair (cs : List Char) : List Char × List Char :=
  (trimText (cs.takeWhile (· ≠ '=')), trimText ((cs.dropWhile (· ≠ '=')).drop 1))

/-- The operands after a mnemonic, all of whose names must be allowed and different (DESIGN CHOICE, log 9). -/
def parseOperands (allowed : List String) (cs : List Char) : Option Operands :=
  let ops := (splitOutside ',' false cs).map parsePair
  if (ops.all fun o => (allowed.map String.toList).contains o.1) ∧ (ops.map (·.1)).Nodup then some ops else none

/-- The value of an operand that must be written. -/
def required {α : Type} (ops : Operands) (name : String) (parse : List Char → Option α) : Option α :=
  (ops.lookup name.toList).bind parse

/-- The value of an operand that may be omitted; the outer `none` is a value that does not parse. -/
def optional {α : Type} (ops : Operands) (name : String) (parse : List Char → Option α) : Option (Option α) :=
  match ops.lookup name.toList with
  | none => some none
  | some v => (parse v).map some

/-- `CTRENC time=<int> [, epoch=<int>] [, period=<int>]` (30_encoding.md R60). -/
def parseCtrencLine (cs : List Char) : Option Line :=
  (parseOperands ["time", "epoch", "period"] cs).bind fun ops =>
  (required ops "time" parseInt).bind fun t =>
  (optional ops "epoch" parseInt).bind fun e =>
  (optional ops "period" parseInt).map fun p => .ctrenc t e p

/-- `GEN alg=<a>, key=<bytes>, ctr=<8 bytes> [, digits=<int>]` (30_encoding.md R60). -/
def parseGenLine (cs : List Char) : Option Line :=
  (parseOperands ["alg", "key", "ctr", "digits"] cs).bind fun ops =>
  (required ops "alg" parseAlg).bind fun a =>
  (required ops "key" parseBytes).bind fun k =>
  (required ops "ctr" parseCtr).bind fun c =>
  (optional ops "digits" parseInt).map fun d => .gen a k c d

/-- `HOTP alg=<a>, key=<k>, count=<int> [, digits=<d>]` (30_encoding.md R63). -/
def parseHotpLine (cs : List Char) : Option Line :=
  (parseOperands ["alg", "key", "count", "digits"] cs).bind fun ops =>
  (required ops "alg" parseAlg).bind fun a =>
  (required ops "key" parseBytes).bind fun k =>
  (required ops "count" parseNat).bind fun n =>
  (optional ops "digits" parseInt).map fun d => .hotp a k n d

/-- `TOTP alg=<a>, key=<k>, time=<t> [, epoch=<e>] [, period=<p>] [, digits=<d>]` (30_encoding.md R63). -/
def parseTotpLine (cs : List Char) : Option Line :=
  (parseOperands ["alg", "key", "time", "epoch", "period", "digits"] cs).bind fun ops =>
  (required ops "alg" parseAlg).bind fun a =>
  (required ops "key" parseBytes).bind fun k =>
  (required ops "time" parseInt).bind fun t =>
  (optional ops "epoch" parseInt).bind fun e =>
  (optional ops "period" parseInt).bind fun p =>
  (optional ops "digits" parseInt).map fun d => .totp a k t e p d

/-- One line of text: "`;` starts a comment", then a mnemonic and its operands (30_encoding.md R60). The outer `none` is
a rejected line. R60 says "One operation per line" and not whether a line may hold none: that a blank or comment-only
line is accepted and holds no operation (`some none`) is the model's (DESIGN CHOICE, log 18). -/
def parseLine (cs : List Char) : Option (Option Line) :=
  let text := trimText ((splitOutside ';' false cs).headD [])
  let mnemonic := text.takeWhile (!Char.isWhitespace ·)
  let rest := text.dropWhile (!Char.isWhitespace ·)
  if text = [] then some none
  else if mnemonic = "CTRENC".toList then (parseCtrencLine rest).map some
  else if mnemonic = "GEN".toList then (parseGenLine rest).map some
  else if mnemonic = "HOTP".toList then (parseHotpLine rest).map some
  else if mnemonic = "TOTP".toList then (parseTotpLine rest).map some
  else none

/-- A program's text, one operation a line (30_encoding.md R60); a line that holds none is skipped (DESIGN
CHOICE, log 18), and a rejected line rejects the program (`none`; DESIGN CHOICE, log 16). -/
def parseProgram (lines : List (List Char)) : Option (List Line) :=
  (lines.mapM parseLine).map fun ls => ls.filterMap id

end Sys2Proof.Machine
end

