-- ==== Sys2Proof/Safety.lean ====
section
/-!
DEFINITION. The terms claims use: when a run is over, which steps are enabled, the protocol invariant, what a response
frame may look like, what the block still owes the host, and what the host sent and got along a run.
-/
namespace Sys2Proof.Machine

/-- "A run is over when REQ, HREQ and HRSP are empty and phase = IDLE" (70_reset_and_hazards.md R147). -/
def State.quiescent (s : State) : Bool :=
  decide (s.phase = .idle) && s.req.isEmpty && s.hreq.isEmpty && s.hrsp.isEmpty

/-- The block has an enabled step: ACCEPT or FINISH (10_state.md R23). -/
def State.blockEnabled (s : State) : Bool :=
  match s.phase with
  | .idle => !s.req.isEmpty
  | .hashWait _ _ => !s.hrsp.isEmpty

/-- The oracle's ANSWER is enabled (10_state.md R23). -/
def State.oracleEnabled (s : State) : Bool := !s.hreq.isEmpty

/-- It is the block's turn, and `rest` are the turns after it: a `block` turn is first, or no turn is listed. -/
def State.BlocksTurn (s : State) (rest : List Turn) : Prop :=
  s.turns = .block :: rest ∨ (s.turns = [] ∧ rest = [])

/-- An oracle request a valid `GEN` sends: its selector, 1 to 65535 key bytes, 8 message bytes (41_otp_engine.md R87). -/
def OracleRequest.fits (alg : Alg) (r : OracleRequest) : Bool :=
  decide (r.alg = alg) && decide (1 ≤ r.key.length) && decide (r.key.length ≤ Config.keyMax) &&
    decide (r.msg.length = Config.ctrBytes)

/-- The protocol between the phase and the oracle's channels: nothing is out when `IDLE`, and exactly one request or one
answer when `HASH_WAIT` (20_memory.md R36 item 3). -/
def State.protocolOk (s : State) : Bool :=
  match s.phase with
  | .idle => s.hreq.isEmpty && s.hrsp.isEmpty
  | .hashWait alg _ =>
    match s.hreq, s.hrsp with
    | [r], [] => r.fits alg
    | [], [_] => true
    | _, _ => false

/-- The oracle's answers under its contract: in `HASH_WAIT(alg, digits)` each answer waiting has `digestSize(alg)` bytes
and each request waiting is for `alg` (41_otp_engine.md R88). -/
def State.answersFit (s : State) : Bool :=
  match s.phase with
  | .idle => true
  | .hashWait alg _ =>
    s.hreq.all (fun r => decide (r.alg = alg)) && s.hrsp.all (fun mac => decide (mac.length = digestSize alg))

/-- A byte is one of the characters '0' to '9' (30_encoding.md R57). -/
def isDecimalChar (b : Byte) : Bool := decide (0x30 ≤ b.toNat) && decide (b.toNat ≤ 0x39)

/-- A frame of format `RE` (30_encoding.md R55, 60_exceptions.md R110). -/
def isErrorFrame (f : Frame) : Bool :=
  match f with
  | [c] => decide (c ∈ [0x01, 0x02, 0x03, 0x04, 0x05, (0xFF : Byte)])
  | _ => false

/-- A frame of format `RC` (30_encoding.md R56). -/
def isCounterFrame (f : Frame) : Bool := decide (f.length = 9) && decide (f.head? = some (0x00 : Byte))

/-- A frame of format `RG`: 0x00, `ndigits` of 6 or 8, and that many decimal characters (30_encoding.md R57). -/
def isCodeFrame (f : Frame) : Bool :=
  match f with
  | status :: n :: code =>
    decide (status = 0x00) && (decide (n = 6) || decide (n = 8)) && decide (code.length = n.toNat) &&
      code.all isDecimalChar
  | _ => false

/-- A response frame of one of the three formats (30_encoding.md R45). -/
def isResponse (f : Frame) : Bool := isErrorFrame f || isCounterFrame f || isCodeFrame f

/-- Every response in `RSP` is a whole frame of one of the three formats. -/
def State.responsesOk (s : State) : Bool := s.rsp.all isResponse

/-- The response of the transaction in flight, if there is one: that of the answer in `HRSP`, or of the answer the oracle
H will give to the request in `HREQ`. -/
def State.inFlight (H : Oracle) (s : State) : List Frame :=
  match s.phase with
  | .idle => []
  | .hashWait alg d =>
    (s.hrsp ++ s.hreq.map (oracleAnswer H)).map fun mac => responseFrame (genFinish alg d mac)

/-- Every response the host has still to get, in order: those in `RSP`, that of the transaction in flight, and `Exec` of
each request waiting in `REQ`. -/
def State.owed (H : Oracle) (s : State) : List Frame :=
  s.rsp ++ s.inFlight H ++ s.req.map (atomicExec H)

/-- The frames the host submits in the next step. -/
def State.submitting (s : State) : List Frame :=
  match s.turns with
  | .submit f :: _ => [f]
  | _ => []

/-- The frames the host collects in the next step. -/
def State.collecting (s : State) : List Frame :=
  match s.turns with
  | .collect :: _ => s.rsp.take 1
  | _ => []

/-- The next step is the reset event. -/
def State.resetting (s : State) : Bool := decide (s.turns.head? = some .reset)

/-- `History H s sent got t`: a run without a reset event leads from s to t, along which the host submitted the frames
`sent` and collected the frames `got`, each in that order (10_state.md R24). -/
inductive History (H : Oracle) : State → List Frame → List Frame → State → Prop where
  | start (s : State) : History H s [] [] s
  | step {s t u : State} {sent got : List Frame} :
      History H s sent got t → t.resetting = false → stepWith H t = .next u →
      History H s (sent ++ t.submitting) (got ++ t.collecting) u

/-- `n` rounds in which the block, the oracle and the block again have a turn: a schedule that is fair to both. -/
def fairRounds : Nat → List Turn
  | 0 => []
  | n + 1 => .block :: .oracle :: .block :: fairRounds n

end Sys2Proof.Machine
end

