-- ==== Sys2Proof/Certificates/Slice0/Obligations.lean ====
section
/-!
DEFINITION. What is to be proved of the model. Statements about a step are about `stepWith H` for EVERY oracle H
(41_otp_engine.md R86); the machine's `step` is the one with the oracle of Config.
-/
open Sys2Proof Sys2Proof.Machine

/-! Reset and the step -/

/-- R21: the state after reset. -/
def Obligations.ResetIsIdleWithEmptyChannels : Prop :=
  State.reset.phase = .idle ∧ State.reset.req = [] ∧ State.reset.rsp = [] ∧ State.reset.hreq = [] ∧
    State.reset.hrsp = []

/-- R135: the reset event brings the block and its four channels to the reset state, from any state. -/
def Obligations.ResetEventEmptiesInstance : Prop :=
  ∀ s : State, (resetInstance s).phase = .idle ∧ (resetInstance s).req = [] ∧ (resetInstance s).rsp = [] ∧
    (resetInstance s).hreq = [] ∧ (resetInstance s).hrsp = []

/-- R23, R135: a step is one agent's turn, or the reset event. Which one is read from the list of turns, and with no turn
listed it is the block's: both are the model's choice (log 1, 3). -/
def Obligations.StepGivesTurnToAgent : Prop :=
  (∀ (H : Oracle) (s : State) (rest : List Turn), s.BlocksTurn rest →
    stepWith H s = blockTurn { s with turns := rest }) ∧
  (∀ (H : Oracle) (s : State) (rest : List Turn), s.turns = .oracle :: rest →
    stepWith H s = .next (oracleTurn H { s with turns := rest })) ∧
  (∀ (H : Oracle) (s : State) (rest : List Turn), s.turns = .reset :: rest →
    stepWith H s = .next (resetInstance { s with turns := rest }))

/-- R86, R137: the machine's step is the general step with the configured oracle. -/
def Obligations.StepUsesConfiguredOracle : Prop := ∀ s : State, step s = stepWith Config.keyedHash s

/-- R23: on the block's turn, when IDLE, the request at the head of REQ is removed and, if it decodes, executed. Whose
turn it is, is read from the model's list of turns (log 1, 3). -/
def Obligations.StepRunsDecodedRequest : Prop :=
  ∀ (s : State) (rest : List Turn) (f : Frame) (fs : List Frame) (i : Instr),
    s.BlocksTurn rest → s.phase = .idle → s.req = f :: fs → decode f = .ok i →
      step s = exec i { s with req := fs, turns := rest }

/-- An opcode-table word placed for the next step is executed by it. How it is placed is the model's choice (log 6). -/
def Obligations.PlacedTableWordIsExecuted : Prop :=
  ∀ (s : State) (nbits w : Nat) (i : Instr), decodeTableWord nbits w = some i →
    step (s.withFetchWord nbits w) = exec i { s with phase := .idle }

/-- No step of any agent in any state ends in a fault or a refusal. That no step stops the machine is the model's
inference from R118 and R119 (DEDUCED, log 15); that the turn of an agent with no enabled step passes is the model's
choice (log 2). -/
def Obligations.EveryStepAnswersNext : Prop := ∀ (H : Oracle) (s : State), ∃ t, stepWith H s = .next t

/-- R142: while the phase is HASH_WAIT no request leaves REQ; it changes only by what the host submits. -/
def Obligations.NoRequestAcceptedInHashWait : Prop :=
  ∀ (H : Oracle) (s t : State) (alg : Alg) (d : Digits),
    s.phase = .hashWait alg d → s.resetting = false → stepWith H s = .next t → t.req = s.req ++ s.submitting

/-- R23 ANSWER, R88, R90: the oracle answers the oldest request, key and message as they stand in it, and the answer
goes to the tail of HRSP. -/
def Obligations.OracleAnswersOldestRequest : Prop :=
  ∀ (H : Oracle) (s : State) (rest : List Turn) (r : OracleRequest) (rs : List OracleRequest),
    s.turns = .oracle :: rest → s.hreq = r :: rs →
      stepWith H s = .next { s with hreq := rs, hrsp := s.hrsp ++ [H r.alg r.key r.msg], turns := rest }

/-- R15, R148, R23 SUBMIT and COLLECT: any frame is appended to REQ in any state, and the oldest response leaves RSP. -/
def Obligations.HostSubmitsAndCollects : Prop :=
  (∀ (H : Oracle) (s : State) (rest : List Turn) (f : Frame), s.turns = .submit f :: rest →
    stepWith H s = .next { s with req := s.req ++ [f], turns := rest }) ∧
  (∀ (H : Oracle) (s : State) (rest : List Turn) (r : Frame) (rs : List Frame), s.turns = .collect :: rest →
    s.rsp = r :: rs → stepWith H s = .next { s with rsp := rs, turns := rest })

/-- The model's choice (log 2): the turn of an agent none of whose steps is enabled changes nothing but the list of
turns. -/
def Obligations.DisabledTurnPasses : Prop :=
  (∀ (H : Oracle) (s : State) (rest : List Turn), s.BlocksTurn rest → s.blockEnabled = false →
    stepWith H s = .next { s with turns := rest }) ∧
  (∀ (H : Oracle) (s : State) (rest : List Turn), s.turns = .oracle :: rest → s.oracleEnabled = false →
    stepWith H s = .next { s with turns := rest }) ∧
  (∀ (H : Oracle) (s : State) (rest : List Turn), s.turns = .collect :: rest → s.rsp = [] →
    stepWith H s = .next { s with turns := rest })

/-! Decoding and encoding -/

/-- R48 to R50: decoding the frame of a well-formed instruction gives it back, for every operand. -/
def Obligations.DecodeOfEncode : Prop := ∀ i : Instr, i.wellFormed = true → decode (encode i) = .ok i

/-- R48 to R52: a frame that decodes is the frame of the instruction it decodes to, which is well formed. -/
def Obligations.EncodeOfDecode : Prop :=
  ∀ (f : Frame) (i : Instr), decode f = .ok i → i.wellFormed = true ∧ encode i = f

/-- R50, R54: the frames that do not decode are exactly those of the table of R54. -/
def Obligations.IllegalFramesExactly : Prop :=
  ∀ f : Frame, (∃ e, decode f = .error e) ↔
    (f = [] ∨ (byteAt f 0 ≠ 0x01 ∧ byteAt f 0 ≠ 0x02) ∨ (byteAt f 0 = 0x01 ∧ f.length ≠ 25) ∨
      (byteAt f 0 = 0x02 ∧ f.length < 13) ∨ (byteAt f 0 = 0x02 ∧ f.length ≠ 13 + ube (slice f 11 13)))

/-- R116, R54, R118: on the block's turn an illegal frame is answered with [0xFF]; no oracle request is sent and nothing
else changes. -/
def Obligations.IllegalFrameAnsweredFF : Prop :=
  ∀ (s : State) (f : Frame) (fs : List Frame) (e : Illegal), s.phase = .idle → s.req = f :: fs → decode f = .error e →
    blockTurn s = .next { s with req := fs, rsp := s.rsp ++ [[0xFF]] }

/-- R52: how each operand is assembled from the frame's bytes, and its range. -/
def Obligations.OperandsAssembledFromFrame : Prop :=
  (∀ f : Frame, f.length = 25 → byteAt f 0 = 0x01 → ∃ time epoch period : Seconds,
    decode f = .ok (.ctrenc time epoch period) ∧
    time.toInt = sbe (slice f 1 9) ∧ epoch.toInt = sbe (slice f 9 17) ∧ period.toInt = sbe (slice f 17 25) ∧
    (∀ v ∈ [time.toInt, epoch.toInt, period.toInt], -2 ^ 63 ≤ v ∧ v ≤ 2 ^ 63 - 1)) ∧
  (∀ (f : Frame) (keylen : Nat), 13 ≤ f.length → byteAt f 0 = 0x02 →
    keylen = (byteAt f 11).toNat * 256 + (byteAt f 12).toNat → f.length = 13 + keylen →
    decode f = .ok (.gen (byteAt f 1) (byteAt f 2) (slice f 3 11) (slice f 13 (13 + keylen))) ∧
    (slice f 3 11).length = 8 ∧ (slice f 13 (13 + keylen)).length = keylen ∧ keylen ≤ 65535)

/-- R65, R46: byte 0 alone selects the operation; 0x01 is CTRENC, 0x02 is GEN, the other 254 values are illegal. -/
def Obligations.OpcodeByteSelectsOperation : Prop :=
  (∀ (f : Frame) (i : Instr), decode f = .ok i →
    (f.head? = some 0x01 ∧ ∃ time epoch period, i = .ctrenc time epoch period) ∨
    (f.head? = some 0x02 ∧ ∃ alg digits ctr key, i = .gen alg digits ctr key)) ∧
  (∀ (b : Byte) (rest : Frame), b ≠ 0x01 → b ≠ 0x02 → decode (b :: rest) = .error .opcode)

/-- R70, R85: the two worked-example frames decode to their operations. -/
def Obligations.WorkedExampleFramesDecode : Prop :=
  decode [0x01, 0, 0, 0, 0, 0, 0, 0, 0x3b, 0, 0, 0, 0, 0, 0, 0, 0, 0, 0, 0, 0, 0, 0, 0, 0x1e] =
    .ok (.ctrenc 59 0 30) ∧
  decode [0x02, 0x01, 0x06, 0, 0, 0, 0, 0, 0, 0, 0, 0x00, 0x14, 0x31, 0x32, 0x33, 0x34, 0x35, 0x36, 0x37, 0x38, 0x39,
    0x30, 0x31, 0x32, 0x33, 0x34, 0x35, 0x36, 0x37, 0x38, 0x39, 0x30] =
    .ok (.gen 0x01 0x06 [0, 0, 0, 0, 0, 0, 0, 0] [0x31, 0x32, 0x33, 0x34, 0x35, 0x36, 0x37, 0x38, 0x39, 0x30, 0x31,
      0x32, 0x33, 0x34, 0x35, 0x36, 0x37, 0x38, 0x39, 0x30])

/-- R53: the selector codes, their digest sizes, and that the set is closed. -/
def Obligations.SelectorCodesAndDigestSizes : Prop :=
  (∀ b : Byte, selector b = if b = 0x01 then some .sha1 else if b = 0x02 then some .sha256
    else if b = 0x03 then some .sha512 else none) ∧
  digestSize .sha1 = 20 ∧ digestSize .sha256 = 32 ∧ digestSize .sha512 = 64

/-- R45: the response formats are told apart by their lengths: RE 1 byte, RC 9 bytes, RG 8 or 10 bytes. -/
def Obligations.ResponseFormatsHaveOwnLengths : Prop :=
  ∀ f : Frame, (isErrorFrame f = true → f.length = 1) ∧ (isCounterFrame f = true → f.length = 9) ∧
    (isCodeFrame f = true → f.length = 8 ∨ f.length = 10)

/-! CTRENC -/

/-- R71, R76, R56: with time ≥ epoch and period > 0, CTRENC answers 0x00 and 8 bytes whose big-endian reading is
floor((time − epoch) / period), exactly: nothing wraps (R75). -/
def Obligations.CtrencAnswersFloorCounter : Prop :=
  ∀ (time epoch period : Seconds) (s : State), epoch.toInt ≤ time.toInt → 0 < period.toInt →
    ∃ ctr : Frame, ctr.length = 8 ∧ (ube ctr : Int) = (time.toInt - epoch.toInt) / period.toInt ∧
      exec (.ctrenc time epoch period) s = .next { s with phase := .idle, rsp := s.rsp ++ [0x00 :: ctr] }

/-- R77, R25: every time of one step of `period` seconds gives the same counter, the bytes BE_8 of the step's number. -/
def Obligations.CtrencCounterConstantOverStep : Prop :=
  ∀ (time epoch period : Seconds) (q : Nat) (s : State), 0 < period.toInt →
    epoch.toInt + q * period.toInt ≤ time.toInt → time.toInt ≤ epoch.toInt + (q + 1) * period.toInt - 1 →
      exec (.ctrenc time epoch period) s = .next { s with phase := .idle, rsp := s.rsp ++ [0x00 :: beBytes 8 q] }

/-- R72, R74: time < epoch is InvalidTimeError, whatever the period. -/
def Obligations.CtrencTimeBeforeEpochIsInvalidTime : Prop :=
  ∀ (time epoch period : Seconds) (s : State), time.toInt < epoch.toInt →
    exec (.ctrenc time epoch period) s = .next { s with phase := .idle, rsp := s.rsp ++ [[0x01]] }

/-- R73: period ≤ 0 is InvalidConfigError once time ≥ epoch. -/
def Obligations.CtrencPeriodNotPositiveIsInvalidConfig : Prop :=
  ∀ (time epoch period : Seconds) (s : State), epoch.toInt ≤ time.toInt → period.toInt ≤ 0 →
    exec (.ctrenc time epoch period) s = .next { s with phase := .idle, rsp := s.rsp ++ [[0x04]] }

/-- R70, R78: the frame of CTRENC: one response is added; the requests, the oracle's channels and the turns are
unchanged. (The machine has no register, flag or memory.) -/
def Obligations.CtrencFrame : Prop :=
  ∀ (time epoch period : Seconds) (s t : State), exec (.ctrenc time epoch period) s = .next t →
    t.phase = .idle ∧ t.req = s.req ∧ t.hreq = s.hreq ∧ t.hrsp = s.hrsp ∧ t.turns = s.turns ∧
      ∃ r, t.rsp = s.rsp ++ [r]

/-! GEN -/

/-- R85, R87, R99: a valid GEN sends exactly one oracle request, key and counter as they stand, and waits with its
selector and digit count; it sends no response yet. -/
def Obligations.GenValidRequestAsksOracle : Prop :=
  ∀ (alg digits : Byte) (a : Alg) (d : Digits) (ctr key : Frame) (s : State),
    (alg, a) ∈ [((0x01 : Byte), Alg.sha1), (0x02, .sha256), (0x03, .sha512)] →
    (digits, d) ∈ [((6 : Byte), Digits.six), (8, .eight)] → key ≠ [] →
      exec (.gen alg digits ctr key) s =
        .next { s with hreq := s.hreq ++ [{ alg := a, key := key, msg := ctr }], phase := .hashWait a d }

/-- R97, R98, R101 in the order of R96 and R120: the errors of GEN, each reported only when no earlier one applies; no
oracle request is sent. -/
def Obligations.GenValidationErrors : Prop :=
  (∀ (alg digits : Byte) (ctr key : Frame) (s : State), digits ≠ 6 → digits ≠ 8 →
    exec (.gen alg digits ctr key) s = .next { s with phase := .idle, rsp := s.rsp ++ [[0x02]] }) ∧
  (∀ (alg digits : Byte) (ctr key : Frame) (s : State), digits = 6 ∨ digits = 8 →
    alg ≠ 0x01 → alg ≠ 0x02 → alg ≠ 0x03 →
    exec (.gen alg digits ctr key) s = .next { s with phase := .idle, rsp := s.rsp ++ [[0x03]] }) ∧
  (∀ (alg digits : Byte) (ctr : Frame) (s : State), digits = 6 ∨ digits = 8 →
    alg = 0x01 ∨ alg = 0x02 ∨ alg = 0x03 →
    exec (.gen alg digits ctr []) s = .next { s with phase := .idle, rsp := s.rsp ++ [[0x04]] })

/-- R85, R99, R118: the frame of GEN at acceptance: it adds one response and asks nothing, or asks once and adds no
response; the requests, the answers and the turns are unchanged. -/
def Obligations.GenFrame : Prop :=
  ∀ (alg digits : Byte) (ctr key : Frame) (s t : State), exec (.gen alg digits ctr key) s = .next t →
    t.req = s.req ∧ t.hrsp = s.hrsp ∧ t.turns = s.turns ∧
      ((t.phase = .idle ∧ t.hreq = s.hreq ∧ ∃ r, t.rsp = s.rsp ++ [r]) ∨
       (t.rsp = s.rsp ∧ ∃ a d, t.phase = .hashWait a d ∧ t.hreq = s.hreq ++ [{ alg := a, key := key, msg := ctr }]))

/-- R91, R29: the offset is the low 4 bits of the last byte of the whole digest, and the window it selects ends before
that byte. -/
def Obligations.OffsetIsLowNibbleOfLastByte : Prop :=
  ∀ (alg : Alg) (mac : Frame), mac.length = digestSize alg →
    truncOffset mac = (byteAt mac (mac.length - 1)).toNat % 16 ∧ truncOffset mac ≤ 15 ∧
      truncOffset mac + 3 ≤ 18 ∧ 20 ≤ mac.length

/-- R92, R26: the window's four bytes are read big-endian. -/
def Obligations.WindowIsBigEndian : Prop :=
  ∀ (alg : Alg) (mac : Frame), mac.length = digestSize alg →
    truncWindow mac = (byteAt mac (truncOffset mac)).toNat * 2 ^ 24 + (byteAt mac (truncOffset mac + 1)).toNat * 2 ^ 16 +
      (byteAt mac (truncOffset mac + 2)).toNat * 2 ^ 8 + (byteAt mac (truncOffset mac + 3)).toNat ∧
    truncWindow mac < 2 ^ 32

/-- R93: the mask keeps bits 30 to 0. -/
def Obligations.MaskKeepsLow31Bits : Prop :=
  ∀ mac : Frame, truncSnum mac = truncWindow mac % 2 ^ 31 ∧ truncSnum mac ≤ 2147483647

/-- R94: the reduction to 6 or 8 decimal digits. -/
def Obligations.ReductionModuloPowerOfTen : Prop :=
  ∀ mac : Frame, otpValue .six mac = truncSnum mac % 1000000 ∧ otpValue .eight mac = truncSnum mac % 100000000 ∧
    otpValue .six mac ≤ 10 ^ 6 - 1 ∧ otpValue .eight mac ≤ 10 ^ 8 - 1

/-- R100, R91 to R95, R57: on the block's turn an answer of the right length ends the GEN with 0x00, the digit count and
exactly that many characters, character i the digit floor(code / 10^(digits−1−i)) mod 10 of the truncated code. The
character codes 0x30 to 0x39 are general knowledge that R57 adopts (log 11); whose turn it is, the model's choice (log 1, 3). -/
def Obligations.FinishSendsPaddedCode : Prop :=
  ∀ (H : Oracle) (s : State) (rest : List Turn) (alg : Alg) (d : Digits) (n : Nat) (mac : Frame) (macs : List Frame),
    s.BlocksTurn rest → s.phase = .hashWait alg d → (d, n) ∈ [(Digits.six, 6), (.eight, 8)] → s.hrsp = mac :: macs →
    mac.length = digestSize alg →
    ∃ code : Frame,
      stepWith H s = .next { s with phase := .idle, hrsp := macs, turns := rest,
                                    rsp := s.rsp ++ [0x00 :: BitVec.ofNat 8 n :: code] } ∧
      code.length = n ∧
      ∀ i < n, (byteAt code i).toNat =
        0x30 + (ube (slice mac ((byteAt mac (mac.length - 1)).toNat % 16)
          ((byteAt mac (mac.length - 1)).toNat % 16 + 4)) % 2 ^ 31 % 10 ^ n) / 10 ^ (n - 1 - i) % 10

/-- R102, R115: an answer of the wrong length ends the GEN with HashOracleError and no code; the phase is IDLE again. Whose
turn it is, is the model's choice (log 1, 3). -/
def Obligations.WrongLengthAnswerIsHashOracleError : Prop :=
  ∀ (H : Oracle) (s : State) (rest : List Turn) (alg : Alg) (d : Digits) (mac : Frame) (macs : List Frame),
    s.BlocksTurn rest → s.phase = .hashWait alg d → s.hrsp = mac :: macs → mac.length ≠ digestSize alg →
      stepWith H s = .next { s with phase := .idle, hrsp := macs, turns := rest, rsp := s.rsp ++ [[0x05]] }

/-- R104 (d): the 6-digit code is the last 6 characters of the 8-digit code. -/
def Obligations.SixDigitCodeEndsEightDigitCode : Prop :=
  ∀ (alg : Alg) (mac : Frame), mac.length = digestSize alg →
    ∃ code6 code8 : Frame, genFinish alg .six mac = .ok (6 :: code6) ∧ genFinish alg .eight mac = .ok (8 :: code8) ∧
      code6.length = 6 ∧ code8.length = 8 ∧ code8.drop 2 = code6

/-- R31, R91, R93: only the low nibble of the last byte and the low 31 bits of the window affect the result. -/
def Obligations.OnlyNibbleAndWindowAffectCode : Prop :=
  ∀ (alg : Alg) (d : Digits) (mac mac' : Frame) (o : Nat),
    mac.length = digestSize alg → mac'.length = digestSize alg →
    (byteAt mac (mac.length - 1)).toNat % 16 = o → (byteAt mac' (mac'.length - 1)).toNat % 16 = o →
    (byteAt mac o).toNat % 128 = (byteAt mac' o).toNat % 128 →
    (∀ k ∈ [1, 2, 3], byteAt mac (o + k) = byteAt mac' (o + k)) →
      genFinish alg d mac = genFinish alg d mac'

/-- R88, R115: under the oracle's length contract, and with the protocol between phase and oracle channels kept, every
step keeps the answers of the right length and adds no HashOracleError response: RSP does not hold more frames [0x05]
after it than before. -/
def Obligations.ContractExcludesHashOracleError : Prop :=
  ∀ (H : Oracle) (s t : State), OracleContract H → s.protocolOk = true → s.answersFit = true →
    stepWith H s = .next t → t.answersFit = true ∧ t.rsp.count [0x05] ≤ s.rsp.count [0x05]

/-- R89: the intended oracle keeps the contract whenever the three hash functions have their digest lengths. HMAC and the
hash functions' lengths are general knowledge (log 10). -/
def Obligations.IntendedOracleKeepsContract : Prop :=
  ∀ sha1 sha256 sha512 : Frame → Frame, (∀ m, (sha1 m).length = 20) → (∀ m, (sha256 m).length = 32) →
    (∀ m, (sha512 m).length = 64) → OracleContract (intendedOracle sha1 sha256 sha512)

/-! The whole machine -/

/-- R10, R36 item 2: what an operation does is one response or one oracle request and a phase, and none of them depends
on the state it runs in. -/
def Obligations.OperationIndependentOfState : Prop :=
  ∀ i : Instr, ∃ (rs : List Frame) (qs : List OracleRequest) (p : Phase), rs.length + qs.length = 1 ∧
    ∀ s : State, exec i s = .next { s with rsp := s.rsp ++ rs, hreq := s.hreq ++ qs, phase := p }

/-- R19: after the oracle has answered, nothing distinguishes two requests whose keys and counters differ but whose
digests agree. -/
def Obligations.KeyNotKeptAfterAnswer : Prop :=
  ∀ (H : Oracle) (alg digits : Byte) (ctr ctr' key key' : Frame) (s t t' : State),
    s.hreq = [] → key ≠ [] → key' ≠ [] → (∀ a, H a key ctr = H a key' ctr') →
    exec (.gen alg digits ctr key) s = .next t → exec (.gen alg digits ctr' key') s = .next t' →
      oracleTurn H t = oracleTurn H t'

/-- The protocol and response invariants hold at reset, whatever turns follow. -/
def Obligations.ResetMeetsInvariants : Prop :=
  ∀ turns : List Turn, ({ State.reset with turns := turns } : State).protocolOk = true ∧
    ({ State.reset with turns := turns } : State).responsesOk = true ∧
    ({ State.reset with turns := turns } : State).answersFit = true

/-- R36 item 3, R17: every step keeps the protocol between the phase and the oracle's channels: nothing out when IDLE,
exactly one request or answer out when HASH_WAIT, a request of the waiting selector with 1 to 65535 key bytes and 8
message bytes. -/
def Obligations.ProtocolInvariantKept : Prop :=
  ∀ (H : Oracle) (s t : State), s.protocolOk = true → stepWith H s = .next t → t.protocolOk = true

/-- R32, R45, R55 to R57, R110: every step keeps every frame in RSP a whole response of one of the three formats; no
other status code is ever sent. The characters 0x30 to 0x39 of RG are general knowledge that R57 adopts (PRESUMED,
log 11). -/
def Obligations.ResponseFormatsKept : Prop :=
  ∀ (H : Oracle) (s t : State), s.responsesOk = true → stepWith H s = .next t → t.responsesOk = true

/-- R36 item 3: at most one oracle request is outstanding, and the block and the oracle never both have an enabled
step. -/
def Obligations.AtMostOneOracleRequestOutstanding : Prop :=
  ∀ s : State, s.protocolOk = true →
    s.hreq.length + s.hrsp.length ≤ 1 ∧ ¬(s.blockEnabled = true ∧ s.oracleEnabled = true)

/-- R147: a run is over exactly when neither the block nor the oracle has an enabled step. -/
def Obligations.RunOverIffNothingEnabled : Prop :=
  ∀ s : State, s.protocolOk = true → (s.quiescent = true ↔ s.blockEnabled = false ∧ s.oracleEnabled = false)

/-- R24, R36: every step conserves what the block owes the host: the responses still to come grow by `Exec` of what the
host submits and shrink by what it collects, in order. -/
def Obligations.OwedResponsesConserved : Prop :=
  ∀ (H : Oracle) (s t : State), s.protocolOk = true → s.resetting = false → stepWith H s = .next t →
    s.collecting ++ t.owed H = s.owed H ++ s.submitting.map (atomicExec H)

/-- R24: from reset, under every interleaving of the agents, the frames the host has collected are a prefix of `Exec` of
the frames it has submitted, in order, and what it has still to get is the rest. It follows from the two
step lemmas ProtocolInvariantKept and OwedResponsesConserved. That every interleaving is a list of turns is the model's
choice (log 1). -/
def Obligations.ResponsesFollowAtomicExec : Prop :=
  ∀ (H : Oracle) (turns : List Turn) (sent got : List Frame) (t : State),
    History H { State.reset with turns := turns } sent got t →
      got <+: sent.map (atomicExec H) ∧ got ++ t.owed H = sent.map (atomicExec H)

/-- R24: one transaction, run by the turns block, oracle, block, answers `Exec` of its frame, whatever the frame. Where
the frame asks nothing of the oracle the last two turns have no enabled step, and that they pass is the model's choice
(log 2). -/
def Obligations.OneTransactionAnswersExec : Prop :=
  ∀ (H : Oracle) (s : State) (f : Frame), s.phase = .idle → s.hreq = [] → s.hrsp = [] → s.req = [f] →
    s.turns = [.block, .oracle, .block] →
      runWith H 3 s = .next { s with req := [], rsp := s.rsp ++ [atomicExec H f], turns := [] }

/-- R24: the schedule of rounds block, oracle, block, with no turn of the host between, one round for each request
waiting and one more, ends the run with every response owed in RSP, in order. A turn in a round with no enabled step
passes, which is the model's choice (log 2). -/
def Obligations.FairTurnsDeliverEverything : Prop :=
  ∀ (H : Oracle) (s : State), s.protocolOk = true → s.turns = fairRounds (s.req.length + 1) →
    ∃ t, runWith H (3 * (s.req.length + 1)) s = .next t ∧ t.quiescent = true ∧ t.rsp = s.owed H

/-- R24, R36: under any list of turns with no reset event that has such rounds in it, in this order and with any turns of
any agent between, one for each request waiting and one more, every response owed at the start has been sent when the
list ends: the frames the host collected, and then those in RSP, begin with them. Turns with no enabled step pass, which
is the model's choice (log 2). -/
def Obligations.EnoughRoundsAnswerWaitingRequests : Prop :=
  ∀ (H : Oracle) (s : State), s.protocolOk = true → Turn.reset ∉ s.turns →
    (fairRounds (s.req.length + 1)).Sublist s.turns →
    ∃ sent got t, History H s sent got t ∧ runWith H s.turns.length s = .next t ∧ s.owed H <+: got ++ t.rsp

/-- R143: if the oracle never answers and no reset comes, the block stays in HASH_WAIT for ever, with every request
waiting: there is no time-out. "Never answers" is read as: no turn of the oracle is listed; that none comes after the
list ends, when only the block moves, is the model's choice (log 3). -/
def Obligations.NoTimeOut : Prop :=
  ∀ (H : Oracle) (s : State) (n : Nat) (alg : Alg) (d : Digits),
    s.phase = .hashWait alg d → s.hrsp = [] → Turn.oracle ∉ s.turns → Turn.reset ∉ s.turns →
      ∃ t, runWith H n s = .next t ∧ t.phase = .hashWait alg d ∧ s.req <+: t.req

/-! The host's side -/

/-- R62: each omitted operand takes its own default, whatever the others are, in the frames of CTRENC and GEN and in a
HOTP or TOTP line: epoch 0, period 30, digits 6. -/
def Obligations.AssemblerDefaults : Prop :=
  (∀ (time : Int) (period : Option Int), assembleCtrenc time none period = assembleCtrenc time (some 0) period) ∧
  (∀ (time : Int) (epoch : Option Int), assembleCtrenc time epoch none = assembleCtrenc time epoch (some 30)) ∧
  (∀ (alg : AlgOperand) (key : Frame), assembleGen alg key none = assembleGen alg key (some 6)) ∧
  (∀ (H : Oracle) (last : Option Frame) (alg : AlgOperand) (key : Frame) (count : Nat),
    runLine H last (.hotp alg key count none) = runLine H last (.hotp alg key count (some 6))) ∧
  (∀ (H : Oracle) (last : Option Frame) (alg : AlgOperand) (key : Frame) (time : Int) (epoch period digits : Option Int),
    runLine H last (.totp alg key time none period digits) = runLine H last (.totp alg key time (some 0) period digits) ∧
    runLine H last (.totp alg key time epoch none digits) = runLine H last (.totp alg key time epoch (some 30) digits) ∧
    runLine H last (.totp alg key time epoch period none) = runLine H last (.totp alg key time epoch period (some 6)))

/-- R63: HOTP is the GEN whose counter is BE_8 of the count. -/
def Obligations.HotpIsGenOfCount : Prop :=
  ∀ (H : Oracle) (last : Option Frame) (alg : AlgOperand) (key : Frame) (count : Nat) (digits : Option Int),
    count < 2 ^ 64 →
      runLine H last (.hotp alg key count digits) = runLine H last (.gen alg key (.bytes (beBytes 8 count)) digits)

/-- R63: TOTP submits a CTRENC; if its response is an error it stops there and that response is the result; otherwise it
submits the GEN of the counter. -/
def Obligations.TotpRunsCtrencThenGen : Prop :=
  ∀ (H : Oracle) (last : Option Frame) (alg : AlgOperand) (key : Frame) (time epoch period : Seconds) (digits : Byte),
    key.length ≤ 65535 →
    (time.toInt < epoch.toInt →
      runLine H last (.totp alg key time.toInt (some epoch.toInt) (some period.toInt) (some digits.toNat)) =
        some { requests := [encode (.ctrenc time epoch period)], responses := [[0x01]], lastCtr := last }) ∧
    (epoch.toInt ≤ time.toInt → period.toInt ≤ 0 →
      runLine H last (.totp alg key time.toInt (some epoch.toInt) (some period.toInt) (some digits.toNat)) =
        some { requests := [encode (.ctrenc time epoch period)], responses := [[0x04]], lastCtr := last }) ∧
    (epoch.toInt ≤ time.toInt → 0 < period.toInt →
      ∃ ctr : Frame, ctr.length = 8 ∧ (ube ctr : Int) = (time.toInt - epoch.toInt) / period.toInt ∧
        runLine H last (.totp alg key time.toInt (some epoch.toInt) (some period.toInt) (some digits.toNat)) =
          some { requests := [encode (.ctrenc time epoch period), encode (.gen (algByte alg) digits ctr key)],
                 responses := [0x00 :: ctr, atomicExec H (encode (.gen (algByte alg) digits ctr key))],
                 lastCtr := some ctr })
end

