-- ==== Sys2Proof/Laws/Bytes.lean ====
section
/-!
SUPPORT. Laws of the byte conversions: lengths, ranges, and that `BE_n` and `UBE` undo each other (00_scope.md R6).
-/
namespace Sys2Proof.Machine

@[simp] theorem beBytes_zero (v : Nat) : beBytes 0 v = [] := rfl

@[simp] theorem length_beBytes (n v : Nat) : (beBytes n v).length = n := by
  induction n with
  | zero => rfl
  | succ n ih => simp [beBytes, ih]

@[simp] theorem ube_nil : ube [] = 0 := rfl

theorem ube_cons (b : Byte) (bs : Frame) : ube (b :: bs) = b.toNat * 256 ^ bs.length + ube bs := rfl

theorem sbe_cons (b : Byte) (bs : Frame) :
    sbe (b :: bs) = if b.toNat < 128 then (ube (b :: bs) : Int) else (ube (b :: bs) : Int) - 256 ^ (bs.length + 1) := rfl

/-- `UBE` of n bytes is below 256^n. -/
theorem ube_lt (bs : Frame) : ube bs < 256 ^ bs.length := by
  induction bs with
  | nil => simp
  | cons b bs ih =>
    rw [ube_cons, List.length_cons, Nat.pow_succ]
    have hb : b.toNat < 256 := b.isLt
    nlinarith [Nat.mul_le_mul_right (256 ^ bs.length) (Nat.le_of_lt_succ hb)]

/-- `UBE` reads back what `BE_n` wrote, modulo 256^n. -/
theorem ube_beBytes_mod (n v : Nat) : ube (beBytes n v) = v % 256 ^ n := by
  induction n with
  | zero => simp [Nat.mod_one]
  | succ n ih =>
    rw [beBytes, ube_cons, ih, length_beBytes, BitVec.toNat_ofNat,
      show 256 ^ (n + 1) = 256 ^ n * 256 from Nat.pow_succ _ _, Nat.mod_mul, Nat.mul_comm, Nat.add_comm]

/-- `UBE(BE_n(v)) = v` where `BE_n(v)` is defined. -/
theorem ube_beBytes {n v : Nat} (h : v < 256 ^ n) : ube (beBytes n v) = v := by
  rw [ube_beBytes_mod, Nat.mod_eq_of_lt h]

/-- `BE_n` drops what is above 256^n. -/
theorem beBytes_add_mul (n v k : Nat) : beBytes n (v + 256 ^ n * k) = beBytes n v := by
  induction n generalizing v k with
  | zero => rfl
  | succ n ih =>
    have e : v + 256 ^ (n + 1) * k = v + 256 ^ n * (256 * k) := by rw [Nat.pow_succ]; ring
    simp only [beBytes]
    rw [e, ih, Nat.add_mul_div_left _ _ (Nat.pow_pos (by decide))]
    congr 1
    apply BitVec.eq_of_toNat_eq
    simp [BitVec.toNat_ofNat]

/-- `BE_n(UBE(b)) = b` for n bytes b. -/
theorem beBytes_ube (bs : Frame) : beBytes bs.length (ube bs) = bs := by
  induction bs with
  | nil => rfl
  | cons b bs ih =>
    rw [ube_cons, List.length_cons, beBytes]
    have h : (b.toNat * 256 ^ bs.length + ube bs) / 256 ^ bs.length = b.toNat := by
      rw [Nat.mul_comm, Nat.mul_add_div (Nat.pow_pos (by decide)), Nat.div_eq_of_lt (ube_lt bs), Nat.add_zero]
    rw [h, Nat.add_comm, Nat.mul_comm, beBytes_add_mul, ih, BitVec.ofNat_toNat, BitVec.setWidth_eq]

/-- Eight bytes as a 64-bit word: the signed and the unsigned reading are the same bits. -/
theorem ofInt_sbe {bs : Frame} (h : bs.length = 8) : BitVec.ofInt 64 (sbe bs) = BitVec.ofNat 64 (ube bs) := by
  cases bs with
  | nil => simp at h
  | cons b bs =>
    have h7 : bs.length = 7 := by simpa using h
    apply BitVec.eq_of_toNat_eq
    rw [sbe_cons, h7, BitVec.toNat_ofInt, BitVec.toNat_ofNat]
    split <;> push_cast <;> omega

/-- The signed reading of eight bytes is the two's complement value of their 64-bit word (00_scope.md R6). -/
theorem toInt_ofInt_sbe {bs : Frame} (h : bs.length = 8) : (BitVec.ofInt 64 (sbe bs)).toInt = sbe bs := by
  cases bs with
  | nil => simp at h
  | cons b bs =>
    have h7 : bs.length = 7 := by simpa using h
    have hb : b.toNat < 256 := b.isLt
    have hl := ube_lt bs
    rw [h7] at hl
    rw [BitVec.toInt_ofInt, sbe_cons, ube_cons, h7]
    apply Int.bmod_eq_of_le <;> split <;> push_cast <;> omega

theorem length_slice (f : Frame) (a b : Nat) : (slice f a b).length = min (b - a) (f.length - a) := by
  simp [slice]

/-- A slice inside the buffer has `b − a` bytes (00_scope.md R5). -/
theorem length_slice_of_le {f : Frame} {a b : Nat} (h : b ≤ f.length) : (slice f a b).length = b - a := by
  rw [length_slice]; omega

/-- Writing n bytes over n bytes at offset 0 leaves `BE_n(v)` (00_scope.md R7). -/
theorem memWrite_whole {buf : Frame} {n v : Nat} (h : buf.length = n) : memWrite buf 0 n v = beBytes n v := by
  subst h; simp [memWrite]

end Sys2Proof.Machine
end

