-- ==== Sys2Proof/Laws/Decode.lean ====
section
/-!
SUPPORT. What a decoded frame looks like, said once, and what well-formedness says of each operation.
-/
namespace Sys2Proof.Machine

@[simp] theorem wellFormed_ctrenc (time epoch period : Seconds) : (Instr.ctrenc time epoch period).wellFormed = true :=
  rfl

@[simp] theorem wellFormed_gen (alg digits : Byte) (ctr key : Frame) :
    (Instr.gen alg digits ctr key).wellFormed = true ↔ ctr.length = 8 ∧ key.length ≤ 65535 := by
  simp only [Instr.wellFormed, ctrFits, keyFits, Config.ctrBytes, Config.keyMax, Bool.and_eq_true, decide_eq_true_eq]

/-- A decoded frame is one of the two formats, and its fields are the slices of the frame (30_encoding.md R50). -/
theorem decode_ok_cases {f : Frame} {i : Instr} (h : decode f = .ok i) :
    (∃ rest, f = opCtrenc :: rest ∧ f.length = 25 ∧
      i = .ctrenc (secondsAt f 1) (secondsAt f 9) (secondsAt f 17)) ∨
    (∃ rest, f = opGen :: rest ∧ 13 ≤ f.length ∧ f.length = 13 + keylenOf f ∧
      i = .gen (byteAt f 1) (byteAt f 2) (slice f 3 11) (slice f 13 (13 + keylenOf f))) := by
  unfold decode at h
  split at h
  · simp at h
  · rename_i op rest
    split at h
    · subst op
      split at h
      · simp at h
      · rename_i hl
        left
        exact ⟨rest, rfl, by simpa using hl, by simpa using h.symm⟩
    · split at h
      · subst op
        split at h
        · simp at h
        · split at h
          · simp at h
          · rename_i h13 hl
            right
            exact ⟨rest, rfl, by omega, by omega, by simpa using h.symm⟩
      · simp at h

/-- A decoded `GEN` carries an 8-byte counter and a key of at most 65535 bytes (30_encoding.md R49). -/
theorem decode_gen_fits {f : Frame} {alg digits : Byte} {ctr key : Frame}
    (h : decode f = .ok (.gen alg digits ctr key)) : ctr.length = 8 ∧ key.length ≤ 65535 := by
  obtain ⟨_, _, _, hi⟩ | ⟨_, _, h13, hl, hi⟩ := decode_ok_cases h
  · simp at hi
  · obtain ⟨-, -, rfl, rfl⟩ := Instr.gen.inj hi
    have hk : keylenOf f < 256 ^ 2 := by
      have := ube_lt (slice f 11 13)
      rwa [length_slice_of_le (by omega)] at this
    rw [length_slice_of_le (by omega), length_slice_of_le (by omega)]
    omega

end Sys2Proof.Machine
end

