-- ==== Sys2Proof/Laws/State.lean ====
section
/-!
SUPPORT. One lemma per field per update of the state.
-/
namespace Sys2Proof.Machine

variable (s : State) (r f : Frame) (e : Error) (q : OracleRequest) (d : Digits)

@[simp] theorem reset_phase : State.reset.phase = .idle := rfl
@[simp] theorem reset_req : State.reset.req = [] := rfl
@[simp] theorem reset_rsp : State.reset.rsp = [] := rfl
@[simp] theorem reset_hreq : State.reset.hreq = [] := rfl
@[simp] theorem reset_hrsp : State.reset.hrsp = [] := rfl
@[simp] theorem reset_turns : State.reset.turns = [] := rfl

@[simp] theorem sendResponse_phase : (sendResponse r s).phase = .idle := rfl
@[simp] theorem sendResponse_req : (sendResponse r s).req = s.req := rfl
@[simp] theorem sendResponse_rsp : (sendResponse r s).rsp = s.rsp ++ [r] := rfl
@[simp] theorem sendResponse_hreq : (sendResponse r s).hreq = s.hreq := rfl
@[simp] theorem sendResponse_hrsp : (sendResponse r s).hrsp = s.hrsp := rfl
@[simp] theorem sendResponse_turns : (sendResponse r s).turns = s.turns := rfl

@[simp] theorem askOracle_phase : (askOracle q d s).phase = .hashWait q.alg d := rfl
@[simp] theorem askOracle_req : (askOracle q d s).req = s.req := rfl
@[simp] theorem askOracle_rsp : (askOracle q d s).rsp = s.rsp := rfl
@[simp] theorem askOracle_hreq : (askOracle q d s).hreq = s.hreq ++ [q] := rfl
@[simp] theorem askOracle_hrsp : (askOracle q d s).hrsp = s.hrsp := rfl
@[simp] theorem askOracle_turns : (askOracle q d s).turns = s.turns := rfl

@[simp] theorem submitFrame_phase : (submitFrame f s).phase = s.phase := rfl
@[simp] theorem submitFrame_req : (submitFrame f s).req = s.req ++ [f] := rfl
@[simp] theorem submitFrame_rsp : (submitFrame f s).rsp = s.rsp := rfl
@[simp] theorem submitFrame_hreq : (submitFrame f s).hreq = s.hreq := rfl
@[simp] theorem submitFrame_hrsp : (submitFrame f s).hrsp = s.hrsp := rfl
@[simp] theorem submitFrame_turns : (submitFrame f s).turns = s.turns := rfl

@[simp] theorem collectFrame_phase : (collectFrame s).phase = s.phase := rfl
@[simp] theorem collectFrame_req : (collectFrame s).req = s.req := rfl
@[simp] theorem collectFrame_rsp : (collectFrame s).rsp = s.rsp.tail := rfl
@[simp] theorem collectFrame_hreq : (collectFrame s).hreq = s.hreq := rfl
@[simp] theorem collectFrame_hrsp : (collectFrame s).hrsp = s.hrsp := rfl
@[simp] theorem collectFrame_turns : (collectFrame s).turns = s.turns := rfl

@[simp] theorem resetInstance_phase : (resetInstance s).phase = .idle := rfl
@[simp] theorem resetInstance_req : (resetInstance s).req = [] := rfl
@[simp] theorem resetInstance_rsp : (resetInstance s).rsp = [] := rfl
@[simp] theorem resetInstance_hreq : (resetInstance s).hreq = [] := rfl
@[simp] theorem resetInstance_hrsp : (resetInstance s).hrsp = [] := rfl
@[simp] theorem resetInstance_turns : (resetInstance s).turns = s.turns := rfl

@[simp] theorem placeRequest_phase : (placeRequest f s).phase = .idle := rfl
@[simp] theorem placeRequest_req : (placeRequest f s).req = f :: s.req := rfl
@[simp] theorem placeRequest_rsp : (placeRequest f s).rsp = s.rsp := rfl
@[simp] theorem placeRequest_hreq : (placeRequest f s).hreq = s.hreq := rfl
@[simp] theorem placeRequest_hrsp : (placeRequest f s).hrsp = s.hrsp := rfl
@[simp] theorem placeRequest_turns : (placeRequest f s).turns = .block :: s.turns := rfl

end Sys2Proof.Machine
end

