-- ==== Sys2Proof/Laws/Ops.lean ====
section
/-!
SUPPORT. What each shared operation can do, said once, to be cited instead of unfolding it.
-/
namespace Sys2Proof.Machine

/-- Whatever an operation ends in, one response frame is sent. -/
theorem conclude_eq (o : Except Error Frame) (s : State) : conclude o s = sendResponse (responseFrame o) s := by
  cases o <;> rfl

/-- `GenValidate` answers `Ok` exactly on a legal digit count, a recognized selector and a key that is not empty. -/
theorem genValidate_ok_iff {alg digits : Byte} {key : Frame} {a : Alg} {d : Digits} :
    genValidate alg digits key = .ok (a, d) ↔ digitCount digits = some d ∧ selector alg = some a ∧ key ≠ [] := by
  unfold genValidate
  cases digitCount digits <;> cases selector alg <;> cases key <;> simp [and_comm]

/-- `execGen` either ends with an error response or sends one oracle request. -/
theorem execGen_cases {alg digits : Byte} {ctr key : Frame} {s t : State}
    (h : execGen alg digits ctr key s = .next t) :
    (∃ e, genValidate alg digits key = .error e ∧ t = raise e s) ∨
    (∃ a d, genValidate alg digits key = .ok (a, d) ∧ t = askOracle { alg := a, key := key, msg := ctr } d s) := by
  unfold execGen at h
  split at h
  · rename_i e he
    exact .inl ⟨e, he, by simpa using h.symm⟩
  · rename_i a d hd
    exact .inr ⟨a, d, hd, by simpa using h.symm⟩

/-- What accepting a frame does: it always answers a next state, which has one response more, or one oracle request more
and waits for its answer. -/
theorem acceptFrame_cases (f : Frame) :
    (∀ H s, acceptFrame f s = .next (sendResponse (atomicExec H f) s)) ∨
    (∃ alg digits ctr key a d, decode f = .ok (.gen alg digits ctr key) ∧ genValidate alg digits key = .ok (a, d) ∧
      ∀ s, acceptFrame f s = .next (askOracle { alg := a, key := key, msg := ctr } d s)) := by
  unfold acceptFrame atomicExec
  cases hd : decode f with
  | error e => left; intro H s; rfl
  | ok i =>
    cases i with
    | ctrenc t e p => left; intro H s; simp [exec, execCtrenc, atomicResponse, conclude_eq]
    | gen alg digits ctr key =>
      cases hv : genValidate alg digits key with
      | error e => left; intro H s; simp [exec, execGen, atomicResponse, hv, raise]
      | ok p => right; exact ⟨alg, digits, ctr, key, p.1, p.2, rfl, hv, fun s => by simp [exec, execGen, hv]⟩

/-- What the block's turn does: nothing, an ACCEPT, or a FINISH (10_state.md R23). -/
theorem blockTurn_cases (s : State) :
    (s.phase = .idle ∧ s.req = [] ∧ blockTurn s = .next s) ∨
    (∃ f fs, s.phase = .idle ∧ s.req = f :: fs ∧ blockTurn s = acceptFrame f { s with req := fs }) ∨
    (∃ alg d, s.phase = .hashWait alg d ∧ s.hrsp = [] ∧ blockTurn s = .next s) ∨
    (∃ alg d mac macs, s.phase = .hashWait alg d ∧ s.hrsp = mac :: macs ∧
      blockTurn s = .next (sendResponse (responseFrame (genFinish alg d mac)) { s with hrsp := macs })) := by
  unfold blockTurn
  cases hp : s.phase with
  | idle =>
    cases hr : s.req with
    | nil => simp
    | cons f fs => simp
  | hashWait alg d =>
    cases hr : s.hrsp with
    | nil => simp
    | cons m ms => simp [finishGen, conclude_eq]

/-- The block's turn always answers a next state. -/
theorem blockTurn_next (s : State) : ∃ t, blockTurn s = .next t := by
  obtain ⟨-, -, h⟩ | ⟨f, fs, -, -, h⟩ | ⟨a, d, -, -, h⟩ | ⟨a, d, m, ms, -, -, h⟩ := blockTurn_cases s
  · exact ⟨_, h⟩
  · rw [h]
    obtain h' | ⟨_, _, _, _, _, _, -, -, h'⟩ := acceptFrame_cases f
    · exact ⟨_, h' (fun _ _ _ => []) _⟩
    · exact ⟨_, h' _⟩
  · exact ⟨_, h⟩
  · exact ⟨_, h⟩

end Sys2Proof.Machine
end

