-- ==== Sys2Proof/Laws/PerInstr.lean ====
section
/-!
SUPPORT. Statements made per instruction, one lemma per constructor of `Instr`.
-/
namespace Sys2Proof.Laws.EncodedShape

/-- The frame of a well-formed instruction begins with its opcode and has the length of its format (30_encoding.md R46,
R48, R49). -/
def Statement (i : Instr) : Prop :=
  i.wellFormed = true →
    match i with
    | .ctrenc _ _ _ => (encode i).head? = some 0x01 ∧ (encode i).length = 25
    | .gen _ _ _ key => (encode i).head? = some 0x02 ∧ (encode i).length = 13 + key.length

theorem ctrenc (time epoch period : Seconds) : Statement (.ctrenc time epoch period) := by
  intro _
  simp [encode, opCtrenc]

theorem gen (alg digits : Byte) (ctr key : Frame) : Statement (.gen alg digits ctr key) := by
  intro h
  have hc : ctr.length = 8 := by
    simp only [Instr.wellFormed, ctrFits, Bool.and_eq_true, decide_eq_true_eq] at h
    exact h.1
  simp only [encode, opGen, List.head?_cons, List.length_cons, List.length_append, Machine.length_beBytes, hc]
  exact ⟨trivial, by omega⟩

end Sys2Proof.Laws.EncodedShape
end

