-- ==== Sys2Proof/Laws/Step.lean ====
section
/-!
SUPPORT. What a step of the machine can do, said once: whose turn it is and what that agent does.
-/
namespace Sys2Proof.Machine

/-- On the block's turn the step is the block's. -/
theorem stepWith_of_blocksTurn {H : Oracle} {s : State} {rest : List Turn} (h : s.BlocksTurn rest) :
    stepWith H s = blockTurn { s with turns := rest } := by
  obtain h | ⟨h, rfl⟩ := h
  · simp [stepWith, h, takeTurn]
  · have hs : s = { s with turns := [] } := by cases s; simp_all
    rw [stepWith, h]
    simp only
    rw [← hs]

/-- A step is the turn of the block, of the oracle or of the host, or the reset event. -/
theorem stepWith_cases {H : Oracle} {s u : State} (h : stepWith H s = .next u) :
    (∃ rest, s.BlocksTurn rest ∧ blockTurn { s with turns := rest } = .next u) ∨
    (∃ rest, s.turns = .oracle :: rest ∧ u = oracleTurn H { s with turns := rest }) ∨
    (∃ rest f, s.turns = .submit f :: rest ∧ u = submitFrame f { s with turns := rest }) ∨
    (∃ rest, s.turns = .collect :: rest ∧ u = collectFrame { s with turns := rest }) ∨
    (∃ rest, s.turns = .reset :: rest ∧ u = resetInstance { s with turns := rest }) := by
  cases ht : s.turns with
  | nil => exact .inl ⟨[], .inr ⟨ht, rfl⟩, by rw [← stepWith_of_blocksTurn (H := H) (.inr ⟨ht, rfl⟩), h]⟩
  | cons t ts =>
    simp only [stepWith, ht] at h
    cases t <;> simp only [takeTurn] at h
    · exact .inl ⟨ts, .inl ht, h⟩
    all_goals simp at h; simp [h]

/-- The block neither reads nor changes the list of turns. -/
theorem blockTurn_turns {s t : State} (h : blockTurn s = .next t) : t.turns = s.turns := by
  obtain ⟨-, -, h'⟩ | ⟨f, fs, -, -, h'⟩ | ⟨a, d, -, -, h'⟩ | ⟨a, d, m, ms, -, -, h'⟩ := blockTurn_cases s
  · rw [h', Host.Outcome.next.injEq] at h; rw [h]
  · rw [h'] at h
    obtain h'' | ⟨_, _, _, _, _, _, -, -, h''⟩ := acceptFrame_cases f
    · rw [h'' (fun _ _ _ => []), Host.Outcome.next.injEq] at h; rw [← h]; rfl
    · rw [h'', Host.Outcome.next.injEq] at h; rw [← h]; rfl
  · rw [h', Host.Outcome.next.injEq] at h; rw [h]
  · rw [h', Host.Outcome.next.injEq] at h; rw [← h]; rfl

@[simp] theorem oracleTurn_turns (H : Oracle) (s : State) : (oracleTurn H s).turns = s.turns := by
  unfold oracleTurn; split <;> rfl

/-- A step uses up the first turn. -/
theorem stepWith_turns {H : Oracle} {s t : State} (h : stepWith H s = .next t) : t.turns = s.turns.tail := by
  obtain ⟨r, hb, h⟩ | ⟨r, hb, rfl⟩ | ⟨r, f, hb, rfl⟩ | ⟨r, hb, rfl⟩ | ⟨r, hb, rfl⟩ := stepWith_cases h
  · rw [blockTurn_turns h]
    obtain hb | ⟨hb, rfl⟩ := hb <;> simp [hb]
  all_goals simp [hb]

end Sys2Proof.Machine
end

