-- ==== Sys2Proof/Tests/Slice0.lean ====
section
/-!
SUPPORT. The model's own tests: expected values are those of spec/95_test_vectors.md or of the encoding tables of
30_encoding.md, and each witness shows that an obligation's hypotheses can be met.
-/
namespace Sys2Proof.Tests

open Sys2Proof.Machine

/-- The next state of an outcome, if there is one. -/
def nextOf : Host.Outcome State Fault Refusal → Option State
  | .next s => some s
  | _ => none

/-- A state from its fields. -/
def sys (phase : Phase) (req rsp : List Frame) (hreq : List OracleRequest) (hrsp : List Frame) (turns : List Turn) :
    State :=
  { phase := phase, req := req, rsp := rsp, hreq := hreq, hrsp := hrsp, turns := turns }

/-- An oracle that keeps the contract of 41_otp_engine.md R88: zeros of the right length. -/
def zeroOracle : Oracle := fun alg _ _ => List.replicate (digestSize alg) 0

/-- The `mac` of vector S1: byte i is i, 20 bytes. -/
def macS1 : Frame := [0, 1, 2, 3, 4, 5, 6, 7, 8, 9, 10, 11, 12, 13, 14, 15, 16, 17, 18, 19]

/-- The `mac` of vector S2: byte i is i, 32 bytes. -/
def macS2 : Frame := macS1 ++ [20, 21, 22, 23, 24, 25, 26, 27, 28, 29, 30, 31]

/-- The `mac` of vector S4: offset 15, window ff ff ff ff. -/
def macS4 : Frame := [0, 0, 0, 0, 0, 0, 0, 0, 0, 0, 0, 0, 0, 0, 0, 0xff, 0xff, 0xff, 0xff, 0xaf]

/-- The `mac` of vector S10: offset 12, window 80 12 d6 87. -/
def macS10 : Frame := [0, 0, 0, 0, 0, 0, 0, 0, 0, 0, 0, 0, 0x80, 0x12, 0xd6, 0x87, 0, 0, 0, 0xfc]

/-- Frame f1 of program P5: GEN, SHA256, 8 digits, key aa. -/
def frameP5 : Frame := [0x02, 0x02, 0x08, 0, 0, 0, 0, 0, 0, 0, 0, 0x00, 0x01, 0xaa]

/-- Vector T2's frame: CTRENC time=0, epoch=0, period=30. -/
def frameT2 : Frame := [0x01, 0, 0, 0, 0, 0, 0, 0, 0, 0, 0, 0, 0, 0, 0, 0, 0, 0, 0, 0, 0, 0, 0, 0, 0x1e]

/-- The oracle request of program P5, row 2. -/
def askP5 : OracleRequest := { alg := .sha256, key := [0xaa], msg := [0, 0, 0, 0, 0, 0, 0, 0] }

/-! Well-formedness: an ill-formed term for each check (30_encoding.md R49). -/

theorem smoke_ctr_of_seven_bytes : (Instr.gen 0x01 0x06 [0, 0, 0, 0, 0, 0, 0] [0xaa]).wellFormed = false := by decide

theorem smoke_key_of_65536_bytes (b : Byte) :
    (Instr.gen 0x01 0x06 [0, 0, 0, 0, 0, 0, 0, 0] (List.replicate 65536 b)).wellFormed = false := by
  refine Bool.eq_false_iff.2 fun h => absurd ((wellFormed_gen _ _ _ _).1 h).2 ?_
  rw [List.length_replicate]
  omega

theorem smoke_well_formed : (Instr.gen 0x01 0x06 [0, 0, 0, 0, 0, 0, 0, 0] []).wellFormed = true := by decide

/-! Decoding: words written out from 30_encoding.md R48 and R49 (vectors T14 and V12's header, X10). -/

theorem test_decode_ctrenc :
    decode [0x01, 0xff, 0xff, 0xff, 0xff, 0xff, 0xff, 0xff, 0xff, 0xff, 0xff, 0xff, 0xff, 0xff, 0xff, 0xff, 0xc3,
      0, 0, 0, 0, 0, 0, 0, 0x1e] = .ok (.ctrenc (-1) (-61) 30) := by decide

theorem test_decode_gen :
    decode [0x02, 0x02, 0x08, 1, 2, 3, 4, 5, 6, 7, 8, 0x00, 0x02, 0xaa, 0xbb] =
      .ok (.gen 0x02 0x08 [1, 2, 3, 4, 5, 6, 7, 8] [0xaa, 0xbb]) := by decide

theorem test_encode_ctrenc : encode (.ctrenc 0 0 30) = frameT2 := by decide

theorem test_encode_gen : encode (.gen 0x02 0x08 [0, 0, 0, 0, 0, 0, 0, 0] [0xaa]) = frameP5 := by decide

/-- Vectors I1, I2, I5, I8, I9, I10, I11 and I6, I7 (24 and 26 bytes). -/
theorem test_illegal_frames :
    decode [] = .error .emptyFrame ∧ decode [0x00] = .error .opcode ∧ decode [0x01] = .error .ctrencLength ∧
    decode (0x01 :: List.replicate 23 0) = .error .ctrencLength ∧
    decode (0x01 :: List.replicate 25 0) = .error .ctrencLength ∧
    decode [0x02, 0x01, 0x06] = .error .genHeader ∧
    decode [0x02, 0x01, 0x06, 0, 0, 0, 0, 0, 0, 0, 0, 0] = .error .genHeader ∧
    decode [0x02, 0x01, 0x06, 0, 0, 0, 0, 0, 0, 0, 0, 0, 2, 0xaa] = .error .genLength ∧
    decode [0x02, 0x01, 0x06, 0, 0, 0, 0, 0, 0, 0, 0, 0, 1, 0xaa, 0xbb] = .error .genLength := by decide

theorem test_table_words :
    decodeTableWord 8 0x01 = some (.ctrenc 0 0 0) ∧ decodeTableWord 8 0x02 = some (.gen 0 0 [0, 0, 0, 0, 0, 0, 0, 0] []) ∧
    decodeTableWord 8 0x03 = none := by decide

/-- The table's two opcode words, zeros after them, run as the first step after reset: CTRENC with period 0 answers
InvalidConfigError (R73), GEN with digits 0 UnsupportedDigitsError (R97, vector X14). -/
theorem test_first_step_after_reset :
    nextOf (step (State.reset.withFetchWord 8 0x01)) = some (sys .idle [] [[0x04]] [] [] []) ∧
    nextOf (step (State.reset.withFetchWord 8 0x02)) = some (sys .idle [] [[0x02]] [] [] []) := by decide

/-! One step. -/

/-- Vector T15: the largest result, d = 2^64 − 1, does not overflow. -/
theorem test_ctrenc_largest_result :
    nextOf (exec (.ctrenc 0x7fffffffffffffff 0x8000000000000000 1) State.reset) =
      some (sys .idle [] [[0, 0xff, 0xff, 0xff, 0xff, 0xff, 0xff, 0xff, 0xff]] [] [] []) := by decide

/-- Vector T24: time < epoch wins over period = 0. -/
theorem test_ctrenc_time_error_first :
    nextOf (exec (.ctrenc 5 10 0) State.reset) = some (sys .idle [] [[0x01]] [] [] []) := by decide

/-- Program P5, row 4: a 32-byte `mac`, whose last byte is byte 31; the code is "52711186". -/
theorem test_gen_last_byte_of_long_mac :
    nextOf (stepWith zeroOracle (sys (.hashWait .sha256 .eight) [] [] [] [macS2] [])) =
      some (sys .idle [] [[0x00, 0x08, 0x35, 0x32, 0x37, 0x31, 0x31, 0x31, 0x38, 0x36]] [] [] []) := by decide

/-- Vector S10: bit 31 of the window is cleared, and a leading zero is kept: "01234567". -/
theorem test_gen_sign_bit_and_padding :
    nextOf (stepWith zeroOracle (sys (.hashWait .sha1 .eight) [] [] [] [macS10] [])) =
      some (sys .idle [] [[0x00, 0x08, 0x30, 0x31, 0x32, 0x33, 0x34, 0x35, 0x36, 0x37]] [] [] []) := by decide

/-- 30_encoding.md R60, R62: a line of program P3 with its comment, and one with every operand out of order. -/
theorem test_parse_lines :
    parseLine "GEN  alg=0x09, key=hex:aa, ctr=hex:0000000000000000   ; bad; selector".toList =
      some (some (.gen (.code 0x09) [0xaa] (.bytes [0, 0, 0, 0, 0, 0, 0, 0]) none)) ∧
    parseLine "TOTP time=-5, key=ascii:\"1;,\", digits=0x8, alg=SHA512".toList =
      some (some (.totp (.name .sha512) [0x31, 0x3b, 0x2c] (-5) none none (some 8))) ∧
    parseLine "CTRENC epoch=3".toList = none := by decide

/-- Program P3: the responses to its lines, with no oracle used. -/
theorem test_program_p3 :
    (runProgram zeroOracle none
      [.totp (.name .sha1) [0x31] 5 (some 10) none none,
       .gen (.name .sha1) [0xaa] (.bytes [0, 0, 0, 0, 0, 0, 0, 0]) (some 7),
       .gen (.code 0x09) [0xaa] (.bytes [0, 0, 0, 0, 0, 0, 0, 0]) none,
       .ctrenc 59 none (some 0), .ctrenc 59 none none]).map (·.responses) =
      some [[0x01], [0x02], [0x03], [0x04], [0x00, 0, 0, 0, 0, 0, 0, 0, 1]] := by decide

/-! Witnesses: states and operands that meet the hypotheses of each obligation that has some. -/

theorem witness_StepGivesTurnToAgent :
    (sys .idle [] [] [] [] []).BlocksTurn [] ∧ (sys .idle [] [] [] [] [.block, .oracle]).BlocksTurn [.oracle] ∧
    (sys (.hashWait .sha1 .six) [] [] [askP5] [] [.oracle]).turns = .oracle :: [] ∧
    (sys (.hashWait .sha1 .six) [[0xff]] [[0x05]] [askP5] [] [.reset]).turns = .reset :: [] :=
  ⟨.inr ⟨rfl, rfl⟩, .inl rfl, rfl, rfl⟩

theorem witness_StepRunsDecodedRequest :
    (sys .idle [frameT2] [] [] [] [.block]).BlocksTurn [] ∧ (sys .idle [frameT2] [] [] [] []).BlocksTurn [] ∧
      decode frameT2 = .ok (.ctrenc 0 0 30) :=
  ⟨.inl rfl, .inr ⟨rfl, rfl⟩, by decide⟩

theorem witness_PlacedTableWordIsExecuted : (decodeTableWord 8 0x02).isSome = true := by decide

theorem witness_NoRequestAcceptedInHashWait :
    let s := sys (.hashWait .sha256 .eight) [frameT2] [] [] [macS2] []
    s.phase = .hashWait .sha256 .eight ∧ s.resetting = false ∧ (nextOf (stepWith zeroOracle s)).isSome = true := by decide

theorem witness_OracleAnswersOldestRequest :
    (sys (.hashWait .sha256 .eight) [] [] [askP5] [] [.oracle]).turns = .oracle :: [] ∧
      (sys (.hashWait .sha256 .eight) [] [] [askP5] [] [.oracle]).hreq = askP5 :: [] := ⟨rfl, rfl⟩

theorem witness_HostSubmitsAndCollects :
    (sys .idle [] [] [] [] [.submit []]).turns = .submit [] :: [] ∧
    (sys .idle [] [[0x05]] [] [] [.collect]).turns = .collect :: [] ∧
      (sys .idle [] [[0x05]] [] [] [.collect]).rsp = [0x05] :: [] := ⟨rfl, rfl, rfl⟩

theorem witness_DisabledTurnPasses :
    ((sys (.hashWait .sha1 .six) [frameT2] [] [] [] []).BlocksTurn [] ∧
      (sys (.hashWait .sha1 .six) [frameT2] [] [] [] []).blockEnabled = false) ∧
    (sys .idle [] [] [] [] [.oracle]).oracleEnabled = false ∧ (sys .idle [] [] [] [] [.collect]).rsp = [] :=
  ⟨⟨.inr ⟨rfl, rfl⟩, by decide⟩, by decide, rfl⟩

theorem witness_IllegalFramesExactly :
    byteAt frameT2.tail 0 ≠ 0x01 ∧ byteAt frameT2.tail 0 ≠ 0x02 ∧ (byteAt (frameT2 ++ [0]) 0 = 0x01 ∧
    (frameT2 ++ [0]).length ≠ 25) ∧ (byteAt [0x02] 0 = 0x02 ∧ ([0x02] : Frame).length < 13) ∧
    (byteAt (frameP5 ++ [0]) 0 = 0x02 ∧ (frameP5 ++ [0]).length ≠ 13 + ube (slice (frameP5 ++ [0]) 11 13)) := by decide

theorem witness_DecodeOfEncode : (Instr.gen 0xff 0xff [0, 0, 0, 0, 0, 0, 0, 0] []).wellFormed = true := by decide

theorem witness_EncodeOfDecode :
    decode frameP5 = .ok (.gen 0x02 0x08 [0, 0, 0, 0, 0, 0, 0, 0] [0xaa]) := by decide

theorem witness_IllegalFrameAnsweredFF :
    (sys .idle [[]] [] [] [] []).phase = .idle ∧ decode [] = .error .emptyFrame ∧
    decode (frameT2 ++ [0]) = .error .ctrencLength ∧ decode (frameP5 ++ [0]) = .error .genLength := by decide

theorem witness_OperandsAssembledFromFrame :
    (frameT2.length = 25 ∧ byteAt frameT2 0 = 0x01) ∧
    (13 ≤ frameP5.length ∧ byteAt frameP5 0 = 0x02 ∧
      1 = (byteAt frameP5 11).toNat * 256 + (byteAt frameP5 12).toNat ∧ frameP5.length = 13 + 1) := by decide

theorem witness_OpcodeByteSelectsOperation :
    decode frameT2 = .ok (.ctrenc 0 0 30) ∧ (0x00 : Byte) ≠ 0x01 ∧ (0x00 : Byte) ≠ 0x02 ∧
      (0x03 : Byte) ≠ 0x01 ∧ (0x03 : Byte) ≠ 0x02 := by decide

theorem witness_ResponseFormatsHaveOwnLengths :
    isErrorFrame [0xff] = true ∧ isCounterFrame [0, 0, 0, 0, 0, 0, 0, 0, 0] = true ∧
    isCodeFrame [0, 6, 0x30, 0x39, 0x30, 0x30, 0x30, 0x30] = true ∧
    isCodeFrame [0, 8, 0x30, 0x39, 0x30, 0x30, 0x30, 0x30, 0x30, 0x30] = true := by decide

/-- Vectors T2 (time = epoch) and T15 (the extremes). -/
theorem witness_CtrencAnswersFloorCounter :
    ((0 : Seconds).toInt ≤ (0 : Seconds).toInt ∧ 0 < (30 : Seconds).toInt) ∧
    ((0x8000000000000000 : Seconds).toInt ≤ (0x7fffffffffffffff : Seconds).toInt ∧ 0 < (1 : Seconds).toInt) := by decide

/-- Vectors T3 and T4: the last second of step 0 and the first of step 1. -/
theorem witness_CtrencCounterConstantOverStep :
    (0 < (30 : Seconds).toInt ∧ (0 : Seconds).toInt + (0 : Nat) * (30 : Seconds).toInt ≤ (29 : Seconds).toInt ∧
      (29 : Seconds).toInt ≤ (0 : Seconds).toInt + ((0 : Nat) + 1) * (30 : Seconds).toInt - 1) ∧
    ((0 : Seconds).toInt + (1 : Nat) * (30 : Seconds).toInt ≤ (30 : Seconds).toInt ∧
      (30 : Seconds).toInt ≤ (0 : Seconds).toInt + ((1 : Nat) + 1) * (30 : Seconds).toInt - 1) := by decide

/-- Vector T19. -/
theorem witness_CtrencTimeBeforeEpochIsInvalidTime : (0 : Seconds).toInt < (1 : Seconds).toInt := by decide

/-- Vectors T21 (period 0) and T23 (period −2^63). -/
theorem witness_CtrencPeriodNotPositiveIsInvalidConfig :
    (0 : Seconds).toInt ≤ (59 : Seconds).toInt ∧ (0 : Seconds).toInt ≤ 0 ∧ (0x8000000000000000 : Seconds).toInt ≤ 0 := by
  decide

theorem witness_CtrencFrame : (nextOf (exec (.ctrenc 0 1 30) State.reset)).isSome = true := by decide

theorem witness_GenValidRequestAsksOracle :
    ((0x03 : Byte), Alg.sha512) ∈ [((0x01 : Byte), Alg.sha1), (0x02, .sha256), (0x03, .sha512)] ∧
    ((8 : Byte), Digits.eight) ∈ [((6 : Byte), Digits.six), (8, .eight)] ∧ ([0xaa] : Frame) ≠ [] := by decide

/-- Vectors X3, X4 (digits 7 and 9), X7, X8 (alg 0 and 4), X10 (empty key). -/
theorem witness_GenValidationErrors :
    ((7 : Byte) ≠ 6 ∧ (7 : Byte) ≠ 8 ∧ (9 : Byte) ≠ 6 ∧ (9 : Byte) ≠ 8) ∧
    (((6 : Byte) = 6 ∨ (6 : Byte) = 8) ∧ (0x00 : Byte) ≠ 0x01 ∧ (0x00 : Byte) ≠ 0x02 ∧ (0x00 : Byte) ≠ 0x03 ∧
      (0x04 : Byte) ≠ 0x01 ∧ (0x04 : Byte) ≠ 0x02 ∧ (0x04 : Byte) ≠ 0x03) ∧
    ((0x03 : Byte) = 0x01 ∨ (0x03 : Byte) = 0x02 ∨ (0x03 : Byte) = 0x03) := by decide

theorem witness_GenFrame :
    (nextOf (exec (.gen 0x01 7 [] []) State.reset)).isSome = true ∧
    (nextOf (exec (.gen 0x01 6 [0, 0, 0, 0, 0, 0, 0, 0] [0xaa]) State.reset)).isSome = true := by decide

theorem witness_OffsetIsLowNibbleOfLastByte : macS4.length = digestSize .sha1 ∧ macS2.length = digestSize .sha256 := by
  decide

theorem witness_WindowIsBigEndian : macS4.length = digestSize .sha1 ∧ (zeroOracle .sha512 [] []).length = digestSize .sha512 := by
  decide

theorem witness_FinishSendsPaddedCode :
    (sys (.hashWait .sha1 .six) [] [] [] [macS4] []).BlocksTurn [] ∧
    (Digits.six, 6) ∈ [(Digits.six, 6), (.eight, 8)] ∧ macS4.length = digestSize .sha1 :=
  ⟨.inr ⟨rfl, rfl⟩, by decide⟩

/-- Vectors O1 (19 bytes), O3 (none) and O4 (20 bytes for SHA256). -/
theorem witness_WrongLengthAnswerIsHashOracleError :
    (sys (.hashWait .sha1 .six) [] [] [] [macS1.tail] [.block]).BlocksTurn [] ∧
    macS1.tail.length ≠ digestSize .sha1 ∧ ([] : Frame).length ≠ digestSize .sha512 ∧
    macS1.length ≠ digestSize .sha256 :=
  ⟨.inl rfl, by decide⟩

theorem witness_SixDigitCodeEndsEightDigitCode : macS10.length = digestSize .sha1 := by decide

/-- S10's `mac` against one with the high nibble of its last byte, bit 31 of its window and its first byte changed. -/
theorem witness_OnlyNibbleAndWindowAffectCode :
    let mac' : Frame := [1, 0, 0, 0, 0, 0, 0, 0, 0, 0, 0, 0, 0x00, 0x12, 0xd6, 0x87, 0, 0, 0, 0x0c]
    macS10.length = digestSize .sha1 ∧ mac'.length = digestSize .sha1 ∧
    (byteAt macS10 (macS10.length - 1)).toNat % 16 = 12 ∧ (byteAt mac' (mac'.length - 1)).toNat % 16 = 12 ∧
    (byteAt macS10 12).toNat % 128 = (byteAt mac' 12).toNat % 128 ∧
    ∀ k ∈ [1, 2, 3], byteAt macS10 (12 + k) = byteAt mac' (12 + k) := by decide

theorem witness_ContractExcludesHashOracleError :
    OracleContract zeroOracle ∧
    (sys (.hashWait .sha256 .eight) [] [] [askP5] [] [.oracle]).protocolOk = true ∧
    (sys (.hashWait .sha256 .eight) [] [] [askP5] [] [.oracle]).answersFit = true ∧
    (nextOf (stepWith zeroOracle (sys (.hashWait .sha256 .eight) [] [] [askP5] [] [.oracle]))).isSome = true :=
  ⟨fun _ _ _ => List.length_replicate, by decide⟩

theorem witness_IntendedOracleKeepsContract :
    (∀ _ : Frame, (List.replicate 20 (0 : Byte)).length = 20) ∧ (∀ _ : Frame, (List.replicate 32 (0 : Byte)).length = 32) ∧
    (∀ _ : Frame, (List.replicate 64 (0 : Byte)).length = 64) :=
  ⟨fun _ => rfl, fun _ => rfl, fun _ => rfl⟩

theorem witness_KeyNotKeptAfterAnswer :
    State.reset.hreq = [] ∧ ([0xaa] : Frame) ≠ [] ∧ ([0xbb] : Frame) ≠ [] ∧
    (∀ a, zeroOracle a [0xaa] [0, 0, 0, 0, 0, 0, 0, 0] = zeroOracle a [0xbb] [1, 0, 0, 0, 0, 0, 0, 0]) ∧
    (nextOf (exec (.gen 0x01 6 [0, 0, 0, 0, 0, 0, 0, 0] [0xaa]) State.reset)).isSome = true ∧
    (nextOf (exec (.gen 0x01 6 [1, 0, 0, 0, 0, 0, 0, 0] [0xbb]) State.reset)).isSome = true :=
  ⟨rfl, by decide, by decide, fun _ => rfl, by decide, by decide⟩

theorem witness_ProtocolInvariantKept :
    (sys (.hashWait .sha256 .eight) [frameT2] [] [askP5] [] []).protocolOk = true ∧
    (sys (.hashWait .sha256 .eight) [frameT2] [] [] [macS2] []).protocolOk = true ∧
    (nextOf (stepWith zeroOracle (sys (.hashWait .sha256 .eight) [frameT2] [] [] [macS2] []))).isSome = true := by decide

theorem witness_ResponseFormatsKept :
    (sys .idle [frameP5] [[0x05], [0x00, 0, 0, 0, 0, 0, 0, 0, 1]] [] [] []).responsesOk = true ∧
    (nextOf (stepWith zeroOracle (sys .idle [frameP5] [[0x05]] [] [] []))).isSome = true := by decide

theorem witness_AtMostOneOracleRequestOutstanding :
    (sys (.hashWait .sha256 .eight) [] [] [askP5] [] []).protocolOk = true := by decide

theorem witness_RunOverIffNothingEnabled :
    State.reset.protocolOk = true ∧ State.reset.quiescent = true ∧
    (sys .idle [[]] [] [] [] []).protocolOk = true ∧ (sys .idle [[]] [] [] [] []).quiescent = false := by decide

theorem witness_OwedResponsesConserved :
    (sys .idle [] [[0x05]] [] [] [.collect]).protocolOk = true ∧
    (sys .idle [] [[0x05]] [] [] [.collect]).resetting = false ∧
    (nextOf (stepWith zeroOracle (sys .idle [] [[0x05]] [] [] [.collect]))).isSome = true := by decide

/-- A run in which the host submits a frame. -/
theorem witness_ResponsesFollowAtomicExec :
    History zeroOracle { State.reset with turns := [.submit frameP5] } ([] ++ [frameP5]) ([] ++ [])
      (sys .idle [frameP5] [] [] [] []) :=
  .step (.start _) rfl rfl

theorem witness_OneTransactionAnswersExec :
    (sys .idle [frameP5] [] [] [] [.block, .oracle, .block]).req = [frameP5] ∧
    (sys .idle [frameP5] [] [] [] [.block, .oracle, .block]).turns = [.block, .oracle, .block] ∧
    (sys .idle [frameP5] [] [] [] [.block, .oracle, .block]).phase = .idle := by decide

theorem witness_FairTurnsDeliverEverything :
    (sys (.hashWait .sha256 .eight) [frameT2] [] [askP5] [] (fairRounds 2)).protocolOk = true ∧
    (sys (.hashWait .sha256 .eight) [frameT2] [] [askP5] [] (fairRounds 2)).turns = fairRounds (1 + 1) := by decide

/-- Two rounds with a submission and a collection between their turns. -/
theorem witness_EnoughRoundsAnswerWaitingRequests :
    let s := sys (.hashWait .sha256 .eight) [frameT2] [] [askP5] []
      [.submit frameP5, .block, .collect, .oracle, .block, .block, .submit [], .oracle, .collect, .block]
    s.protocolOk = true ∧ Turn.reset ∉ s.turns ∧ (fairRounds (s.req.length + 1)).Sublist s.turns := by decide

theorem witness_NoTimeOut :
    (sys (.hashWait .sha256 .eight) [frameT2] [] [askP5] [] [.collect]).hrsp = [] ∧
    Turn.oracle ∉ (sys (.hashWait .sha256 .eight) [frameT2] [] [askP5] [] [.collect]).turns ∧
    Turn.reset ∉ (sys (.hashWait .sha256 .eight) [frameT2] [] [askP5] [] [.collect]).turns := by decide

theorem witness_HotpIsGenOfCount : 2 ^ 64 - 1 < 2 ^ 64 := by decide

/-- An empty key, and each of the three cases of times and period. -/
theorem witness_TotpRunsCtrencThenGen :
    ([] : Frame).length ≤ 65535 ∧ (5 : Seconds).toInt < (10 : Seconds).toInt ∧
    ((0 : Seconds).toInt ≤ (59 : Seconds).toInt ∧ (0 : Seconds).toInt ≤ 0) ∧
    ((0 : Seconds).toInt ≤ (0 : Seconds).toInt ∧ 0 < (30 : Seconds).toInt) := by decide

end Sys2Proof.Tests
end

/-!
PROOFS of the family 10_state.md: reset, the agents' turns, the conservation of the responses owed, and the schedules
that deliver them. First the facts about each agent's turn, then the two step lemmas (the protocol is kept, the owed
responses are conserved), then runs, then the obligations.
-/

namespace Sys2Proof.Machine

/-! ### One turn of one agent (10_state.md R23) -/

section Turns

variable {H : Oracle} {s t : State}

/-- The agent whose turn is listed first takes it. -/
theorem stepWith_of_turns_cons {u : Turn} {rest : List Turn} (h : s.turns = u :: rest) :
    stepWith H s = takeTurn H u { s with turns := rest } := by
  rw [stepWith, h]

theorem oracleTurn_of_nil (h : s.hreq = []) : oracleTurn H s = s := by
  rw [oracleTurn, h]

theorem oracleTurn_of_cons {r : OracleRequest} {rs : List OracleRequest} (h : s.hreq = r :: rs) :
    oracleTurn H s = { s with hreq := rs, hrsp := s.hrsp ++ [oracleAnswer H r] } := by
  rw [oracleTurn, h]

theorem collectFrame_of_nil (h : s.rsp = []) : collectFrame s = s := by
  rw [collectFrame, h, List.tail_nil, ← h]

/-- ACCEPT takes the head of `REQ`. -/
theorem blockTurn_of_idle_cons {f : Frame} {fs : List Frame} (hp : s.phase = .idle) (hr : s.req = f :: fs) :
    blockTurn s = acceptFrame f { s with req := fs } := by
  simp only [blockTurn, hp, hr]

/-- The block with no enabled step is `IDLE` with no request, or waits with no answer. -/
theorem blockEnabled_eq_false_iff :
    s.blockEnabled = false ↔ (s.phase = .idle ∧ s.req = []) ∨ (∃ alg d, s.phase = .hashWait alg d ∧ s.hrsp = []) := by
  unfold State.blockEnabled
  cases s.phase <;> simp

theorem blockTurn_of_disabled (h : s.blockEnabled = false) : blockTurn s = .next s := by
  obtain ⟨hp, hr⟩ | ⟨alg, d, hp, hr⟩ := blockEnabled_eq_false_iff.1 h <;> simp only [blockTurn, hp, hr]

/-- `Exec` of a valid `GEN` is the response to the oracle's answer (10_state.md R24). -/
theorem atomicExec_of_valid_gen (H : Oracle) {f ctr key : Frame} {alg digits : Byte} {a : Alg} {d : Digits}
    (hd : decode f = .ok (.gen alg digits ctr key)) (hv : genValidate alg digits key = .ok (a, d)) :
    atomicExec H f = responseFrame (genFinish a d (oracleAnswer H { alg := a, key := key, msg := ctr })) := by
  simp only [atomicExec, hd, atomicResponse, hv, oracleAnswer]

/-- The oracle request of a valid `GEN` has the form the protocol demands (41_otp_engine.md R87). -/
theorem fits_of_valid_gen {f ctr key : Frame} {alg digits : Byte} {a : Alg} {d : Digits}
    (hd : decode f = .ok (.gen alg digits ctr key)) (hv : genValidate alg digits key = .ok (a, d)) :
    OracleRequest.fits a { alg := a, key := key, msg := ctr } = true := by
  obtain ⟨hctr, hmax⟩ := decode_gen_fits hd
  obtain ⟨-, -, hkey⟩ := genValidate_ok_iff.1 hv
  have hmin : 1 ≤ key.length := List.length_pos_iff.2 hkey
  simp [OracleRequest.fits, hctr, hmax, hmin]

/-- What the block's turn does, with `Exec` of the accepted frame: it passes, or it accepts a frame and answers it, or it
accepts a frame and asks the oracle for the digest that `Exec` of the frame needs, or it finishes. -/
theorem blockTurn_next_cases (H : Oracle) (h : blockTurn s = .next t) :
    (s.blockEnabled = false ∧ t = s) ∨
    (∃ f fs, s.phase = .idle ∧ s.req = f :: fs ∧ t = sendResponse (atomicExec H f) { s with req := fs }) ∨
    (∃ f fs q d, s.phase = .idle ∧ s.req = f :: fs ∧ q.fits q.alg = true ∧
      atomicExec H f = responseFrame (genFinish q.alg d (oracleAnswer H q)) ∧ t = askOracle q d { s with req := fs }) ∨
    (∃ alg d mac macs, s.phase = .hashWait alg d ∧ s.hrsp = mac :: macs ∧
      t = sendResponse (responseFrame (genFinish alg d mac)) { s with hrsp := macs }) := by
  obtain ⟨hp, hr, hb⟩ | ⟨f, fs, hp, hr, hb⟩ | ⟨alg, d, hp, hr, hb⟩ | ⟨alg, d, mac, macs, hp, hr, hb⟩ :=
    blockTurn_cases s <;> rw [hb] at h
  · exact .inl ⟨blockEnabled_eq_false_iff.2 (.inl ⟨hp, hr⟩), (Host.Outcome.next.inj h).symm⟩
  · obtain ha | ⟨_, _, ctr, key, a, d, hd, hv, ha⟩ := acceptFrame_cases f
    · rw [ha H] at h
      exact .inr (.inl ⟨f, fs, hp, hr, (Host.Outcome.next.inj h).symm⟩)
    · rw [ha] at h
      exact .inr (.inr (.inl ⟨f, fs, { alg := a, key := key, msg := ctr }, d, hp, hr, fits_of_valid_gen hd hv,
        atomicExec_of_valid_gen H hd hv, (Host.Outcome.next.inj h).symm⟩))
  · exact .inl ⟨blockEnabled_eq_false_iff.2 (.inr ⟨alg, d, hp, hr⟩), (Host.Outcome.next.inj h).symm⟩
  · exact .inr (.inr (.inr ⟨alg, d, mac, macs, hp, hr, (Host.Outcome.next.inj h).symm⟩))

/-- No step stops the machine. -/
theorem stepWith_next (H : Oracle) (s : State) : ∃ t, stepWith H s = .next t := by
  cases ht : s.turns with
  | nil => simpa only [stepWith_of_blocksTurn (.inr ⟨ht, rfl⟩)] using blockTurn_next _
  | cons u rest =>
    rw [stepWith_of_turns_cons ht]
    cases u with
    | block => exact blockTurn_next _
    | oracle | submit f | collect | reset => exact ⟨_, rfl⟩

/-- The host has no part in the block's turn. -/
theorem State.BlocksTurn.host_idle {rest : List Turn} (h : s.BlocksTurn rest) : s.submitting = [] ∧ s.collecting = [] := by
  obtain h | ⟨h, -⟩ := h <;> simp [State.submitting, State.collecting, h]

end Turns

/-! ### The effect of an instruction -/

section Exec

/-- An accepted instruction sends one response or one oracle request, and which one it is does not depend on the state. -/
theorem exec_cases (i : Instr) :
    (∃ r, ∀ s, exec i s = .next (sendResponse r s)) ∨ (∃ q d, ∀ s, exec i s = .next (askOracle q d s)) := by
  cases i with
  | ctrenc time epoch period =>
    exact .inl ⟨responseFrame (ctrencOutcome time epoch period), fun s => by rw [exec, execCtrenc, conclude_eq]⟩
  | gen alg digits ctr key =>
    cases hv : genValidate alg digits key with
    | error e => exact .inl ⟨errorFrame e, fun s => by simp only [exec, execGen, hv, raise]⟩
    | ok p => exact .inr ⟨{ alg := p.1, key := key, msg := ctr }, p.2, fun s => by simp only [exec, execGen, hv]⟩

/-- The validation of a `GEN` asks of the key only whether it is empty. -/
theorem genValidate_eq_of_ne_nil {alg digits : Byte} {key key' : Frame} (h : key ≠ []) (h' : key' ≠ []) :
    genValidate alg digits key = genValidate alg digits key' := by
  simp only [genValidate, List.length_eq_zero_iff, h, h']

/-- Of an oracle request sent on an empty channel, only its digest and selector are left after the answer. -/
theorem oracleTurn_askOracle {s : State} (H : Oracle) (q : OracleRequest) (d : Digits) (h : s.hreq = []) :
    oracleTurn H (askOracle q d s) =
      { s with hreq := [], hrsp := s.hrsp ++ [oracleAnswer H q], phase := .hashWait q.alg d } := by
  have hq : (askOracle q d s).hreq = [q] := by simp [h]
  rw [oracleTurn_of_cons hq]
  rfl

end Exec

/-! ### The protocol between the phase and the oracle's channels (20_memory.md R36 item 3) -/

section Protocol

variable {H : Oracle} {s t : State}

theorem protocolOk_of_idle (hp : s.phase = .idle) : s.protocolOk = true ↔ s.hreq = [] ∧ s.hrsp = [] := by
  simp [State.protocolOk, hp]

theorem protocolOk_of_hashWait {alg : Alg} {d : Digits} (hp : s.phase = .hashWait alg d) :
    s.protocolOk = true ↔
      (∃ r, s.hreq = [r] ∧ s.hrsp = [] ∧ r.fits alg = true) ∨ (s.hreq = [] ∧ ∃ mac, s.hrsp = [mac]) := by
  simp only [State.protocolOk, hp]
  split <;> simp_all

/-- With an answer waiting, no request is out and no other answer waits. -/
theorem protocolOk_answered {alg : Alg} {d : Digits} {mac : Frame} {macs : List Frame} (h : s.protocolOk = true)
    (hp : s.phase = .hashWait alg d) (hr : s.hrsp = mac :: macs) : s.hreq = [] ∧ macs = [] := by
  obtain ⟨r, -, hn, -⟩ | ⟨hq, m, hm⟩ := (protocolOk_of_hashWait hp).1 h
  · simp [hr] at hn
  · exact ⟨hq, by simp_all⟩

theorem blockTurn_protocolOk (h : s.protocolOk = true) (hb : blockTurn s = .next t) : t.protocolOk = true := by
  obtain ⟨-, rfl⟩ | ⟨f, fs, hp, -, rfl⟩ | ⟨f, fs, q, d, hp, -, hq, -, rfl⟩ | ⟨alg, d, mac, macs, hp, hr, rfl⟩ :=
    blockTurn_next_cases (fun _ _ _ => []) hb
  · exact h
  · exact (protocolOk_of_idle rfl).2 ((protocolOk_of_idle hp).1 h)
  · obtain ⟨hreq, hrsp⟩ := (protocolOk_of_idle hp).1 h
    exact (protocolOk_of_hashWait rfl).2 (.inl ⟨q, by simp [hreq], by simp [hrsp], hq⟩)
  · exact (protocolOk_of_idle rfl).2 (protocolOk_answered (s := s) h hp hr)

theorem oracleTurn_protocolOk (h : s.protocolOk = true) : (oracleTurn H s).protocolOk = true := by
  cases hq : s.hreq with
  | nil => rwa [oracleTurn_of_nil hq]
  | cons r rs =>
    rw [oracleTurn_of_cons hq]
    cases hp : s.phase with
    | idle =>
      have hn := ((protocolOk_of_idle hp).1 h).1
      simp [hq] at hn
    | hashWait alg d =>
      obtain ⟨q, hq', hr, -⟩ | ⟨hn, -⟩ := (protocolOk_of_hashWait hp).1 h
      · have hrs : rs = [] := by simp_all
        exact (protocolOk_of_hashWait rfl).2 (.inr ⟨hrs, oracleAnswer H r, by simp [hr]⟩)
      · simp [hq] at hn

/-- Every step keeps the protocol. -/
theorem stepWith_protocolOk (h : s.protocolOk = true) (hs : stepWith H s = .next t) : t.protocolOk = true := by
  obtain ⟨rest, -, hb⟩ | ⟨rest, -, rfl⟩ | ⟨_, _, -, rfl⟩ | ⟨_, -, rfl⟩ | ⟨_, -, rfl⟩ := stepWith_cases hs
  · exact blockTurn_protocolOk (s := { s with turns := rest }) h hb
  · exact oracleTurn_protocolOk (s := { s with turns := rest }) h
  · exact h
  · exact h
  · rfl

end Protocol

/-! ### The responses owed (10_state.md R24) -/

section Owed

variable {H : Oracle} {s t : State}

theorem inFlight_of_idle (hp : s.phase = .idle) : s.inFlight H = [] := by
  rw [State.inFlight, hp]

theorem inFlight_of_hashWait {alg : Alg} {d : Digits} (hp : s.phase = .hashWait alg d) :
    s.inFlight H = (s.hrsp ++ s.hreq.map (oracleAnswer H)).map fun mac => responseFrame (genFinish alg d mac) := by
  rw [State.inFlight, hp]

@[simp] theorem inFlight_sendResponse (r : Frame) : (sendResponse r s).inFlight H = [] := rfl

/-- The block's turn moves a response owed from `REQ` to the transaction in flight, or from either to `RSP`. -/
theorem blockTurn_owed (h : s.protocolOk = true) (hb : blockTurn s = .next t) : t.owed H = s.owed H := by
  obtain ⟨-, rfl⟩ | ⟨f, fs, hp, hr, rfl⟩ | ⟨f, fs, q, d, hp, hr, -, hf, rfl⟩ | ⟨alg, d, mac, macs, hp, hr, rfl⟩ :=
    blockTurn_next_cases H hb
  · rfl
  · simp [State.owed, inFlight_of_idle hp, hr]
  · obtain ⟨hreq, hrsp⟩ := (protocolOk_of_idle hp).1 h
    simp [State.owed, inFlight_of_idle hp, inFlight_of_hashWait (askOracle_phase _ q d), hr, hreq, hrsp, hf]
  · obtain ⟨hreq, rfl⟩ := protocolOk_answered h hp hr
    simp [State.owed, inFlight_of_hashWait hp, hr, hreq]

/-- The oracle answers its requests in order, so the response in flight stays the same. -/
theorem oracleTurn_owed : (oracleTurn H s).owed H = s.owed H := by
  cases hq : s.hreq with
  | nil => rw [oracleTurn_of_nil hq]
  | cons r rs =>
    rw [oracleTurn_of_cons hq]
    simp [State.owed, State.inFlight, hq]

/-- Every step but the reset event conserves the responses owed. -/
theorem stepWith_owed (h : s.protocolOk = true) (hn : s.resetting = false) (hs : stepWith H s = .next t) :
    s.collecting ++ t.owed H = s.owed H ++ s.submitting.map (atomicExec H) := by
  obtain ⟨rest, hT, hb⟩ | ⟨rest, hT, rfl⟩ | ⟨rest, f, hT, rfl⟩ | ⟨rest, hT, rfl⟩ | ⟨rest, hT, rfl⟩ := stepWith_cases hs
  · obtain ⟨hsub, hcol⟩ := hT.host_idle
    have ho : t.owed H = s.owed H := blockTurn_owed (s := { s with turns := rest }) h hb
    simp [hsub, hcol, ho]
  · have ho : (oracleTurn H { s with turns := rest }).owed H = s.owed H := oracleTurn_owed
    simp [State.collecting, State.submitting, hT, ho]
  · simp [State.owed, State.inFlight, State.collecting, State.submitting, hT]
  · have hrsp : s.rsp.take 1 ++ s.rsp.tail = s.rsp := by rw [← List.drop_one, List.take_append_drop]
    simp only [State.collecting, State.submitting, hT, State.owed, collectFrame_rsp, ← List.append_assoc, hrsp]
    exact (List.append_nil _).symm
  · simp [State.resetting, hT] at hn

end Owed

/-! ### Runs -/

section Runs

variable {H : Oracle} {s t u : State} {sent got : List Frame}

theorem runWith_succ {n : Nat} (hs : stepWith H s = .next t) : runWith H (n + 1) s = runWith H n t := by
  rw [runWith, hs]

/-- A run of n steps uses up n turns. -/
theorem runWith_turns {n : Nat} (h : runWith H n s = .next t) : t.turns = s.turns.drop n := by
  induction n generalizing s with
  | zero => rw [← Host.Outcome.next.inj h, List.drop_zero]
  | succ n ih =>
    obtain ⟨u, hu⟩ := stepWith_next H s
    rw [runWith_succ hu] at h
    rw [ih h, stepWith_turns hu, List.drop_tail]

/-- A run may be extended by a step at its start. -/
theorem History.cons (hn : s.resetting = false) (hs : stepWith H s = .next u) (h : History H u sent got t) :
    History H s (s.submitting ++ sent) (s.collecting ++ got) t := by
  induction h with
  | start => simpa using History.step (.start s) hn hs
  | step _ hn' hs' ih => simpa using History.step ih hn' hs'

theorem History.protocolOk (hok : s.protocolOk = true) (h : History H s sent got t) : t.protocolOk = true := by
  induction h with
  | start => exact hok
  | step _ _ hs ih => exact stepWith_protocolOk ih hs

/-- Along a run the responses owed are conserved: what is collected and what is still owed are what was owed and `Exec`
of what was submitted. -/
theorem History.owed (hok : s.protocolOk = true) (h : History H s sent got t) :
    got ++ t.owed H = s.owed H ++ sent.map (atomicExec H) := by
  induction h with
  | start => simp
  | step h hn hs ih =>
    have hstep := stepWith_owed (h.protocolOk hok) hn hs
    rw [List.append_assoc, hstep, ← List.append_assoc, ih, List.map_append, List.append_assoc]

theorem History.turns_suffix (h : History H s sent got t) : t.turns <:+ s.turns := by
  induction h with
  | start => exact List.suffix_refl _
  | step _ _ hs ih => exact stepWith_turns hs ▸ (List.tail_suffix _).trans ih

/-- While only the block and the oracle have turns, the host submits and collects nothing. -/
theorem History.host_idle (hq : ∀ a ∈ s.turns, a = .block ∨ a = .oracle) (h : History H s sent got t) :
    sent = [] ∧ got = [] := by
  induction h with
  | start => exact ⟨rfl, rfl⟩
  | @step t u sent got h _ _ ih =>
    obtain ⟨rfl, rfl⟩ := ih
    have ht : ∀ a ∈ t.turns, a = .block ∨ a = .oracle := fun a ha => hq a (h.turns_suffix.mem ha)
    cases hT : t.turns with
    | nil => simp [State.submitting, State.collecting, hT]
    | cons a rest =>
      obtain rfl | rfl := ht a (by simp [hT]) <;> simp [State.submitting, State.collecting, hT]

end Runs

/-! ### Schedules of rounds (10_state.md section 9) -/

section Schedules

variable {H : Oracle} {s t : State} {c e : Nat} {rest : List Turn}

/-- How many responses owed have not been sent yet: one for each request in `REQ` and one for the transaction in
flight. -/
def State.unanswered (s : State) : Nat :=
  match s.phase with
  | .idle => s.req.length
  | .hashWait _ _ => s.req.length + 1

/-- Turns that are enough to send the next `c` responses: what the transaction in flight still needs, and a round for
each request after it. -/
def State.turnsNeeded (s : State) : Nat → List Turn
  | 0 => []
  | c + 1 =>
    match s.phase with
    | .idle => fairRounds (c + 1)
    | .hashWait _ _ => if s.hrsp = [] then .oracle :: .block :: fairRounds c else .block :: fairRounds c

/-- The turns listed are enough to send the next `c` responses, and at most `e` more are unanswered. -/
structure State.OnSchedule (s : State) (c e : Nat) : Prop where
  enough : (s.turnsNeeded c).Sublist s.turns
  count : s.unanswered ≤ c + e

theorem unanswered_of_idle (hp : s.phase = .idle) : s.unanswered = s.req.length := by
  rw [State.unanswered, hp]

theorem unanswered_of_hashWait {alg : Alg} {d : Digits} (hp : s.phase = .hashWait alg d) :
    s.unanswered = s.req.length + 1 := by
  rw [State.unanswered, hp]

@[simp] theorem unanswered_sendResponse (r : Frame) (s : State) : (sendResponse r s).unanswered = s.req.length := rfl

theorem unanswered_le (s : State) : s.unanswered ≤ s.req.length + 1 := by
  cases hp : s.phase with
  | idle => simp [unanswered_of_idle hp]
  | hashWait alg d => simp [unanswered_of_hashWait hp]

@[simp] theorem turnsNeeded_zero (s : State) : s.turnsNeeded 0 = [] := rfl

theorem turnsNeeded_of_idle (hp : s.phase = .idle) : s.turnsNeeded c = fairRounds c := by
  cases c <;> simp [State.turnsNeeded, hp, fairRounds]

theorem turnsNeeded_of_asked {alg : Alg} {d : Digits} (hp : s.phase = .hashWait alg d) (hr : s.hrsp = []) :
    s.turnsNeeded (c + 1) = .oracle :: .block :: fairRounds c := by
  simp [State.turnsNeeded, hp, hr]

theorem turnsNeeded_of_answered {alg : Alg} {d : Digits} (hp : s.phase = .hashWait alg d) (hr : s.hrsp ≠ []) :
    s.turnsNeeded (c + 1) = .block :: fairRounds c := by
  simp [State.turnsNeeded, hp, hr]

theorem length_fairRounds (n : Nat) : (fairRounds n).length = 3 * n := by
  induction n with
  | zero => rfl
  | succ n ih => simp [fairRounds, ih]; omega

theorem mem_fairRounds {a : Turn} {n : Nat} (h : a ∈ fairRounds n) : a = .block ∨ a = .oracle := by
  induction n with
  | zero => simp [fairRounds] at h
  | succ n ih =>
    simp only [fairRounds, List.mem_cons] at h
    tauto

/-- Whatever the transaction in flight, `c` rounds are enough for `c` responses. -/
theorem turnsNeeded_sublist_fairRounds (s : State) (c : Nat) : (s.turnsNeeded c).Sublist (fairRounds c) := by
  cases c with
  | zero => exact List.nil_sublist _
  | succ c =>
    rw [fairRounds]
    cases hp : s.phase with
    | idle => rw [turnsNeeded_of_idle hp, fairRounds]
    | hashWait alg d =>
      by_cases hr : s.hrsp = []
      · rw [turnsNeeded_of_asked hp hr]
        exact List.sublist_cons_self _ _
      · rw [turnsNeeded_of_answered hp hr]
        exact (List.sublist_cons_self _ _).trans (List.sublist_cons_self _ _)

theorem mem_turnsNeeded {a : Turn} (h : a ∈ s.turnsNeeded c) : a = .block ∨ a = .oracle :=
  mem_fairRounds ((turnsNeeded_sublist_fairRounds s c).mem h)

/-- A turn of the host does nothing towards the turns needed. -/
theorem turnsNeeded_sublist_tail {a : Turn} (hb : a ≠ .block) (ho : a ≠ .oracle)
    (h : (s.turnsNeeded c).Sublist (a :: rest)) : (s.turnsNeeded c).Sublist rest := by
  obtain h | ⟨l, hl, -⟩ := List.sublist_cons_iff.1 h
  · exact h
  · have := mem_turnsNeeded (a := a) (hl ▸ List.mem_cons_self)
    tauto

/-- The responses owed are those in `RSP` and one for each unanswered request. -/
theorem length_owed (h : s.protocolOk = true) : (s.owed H).length = s.rsp.length + s.unanswered := by
  cases hp : s.phase with
  | idle => simp [State.owed, inFlight_of_idle hp, unanswered_of_idle hp]
  | hashWait alg d =>
    obtain ⟨r, hq, hr, -⟩ | ⟨hq, mac, hr⟩ := (protocolOk_of_hashWait hp).1 h <;>
      simp [State.owed, inFlight_of_hashWait hp, unanswered_of_hashWait hp, hq, hr, Nat.add_comm]

theorem quiescent_iff :
    s.quiescent = true ↔ s.phase = .idle ∧ s.req = [] ∧ s.hreq = [] ∧ s.hrsp = [] := by
  simp [State.quiescent, and_assoc]

theorem owed_of_quiescent (h : s.quiescent = true) : s.owed H = s.rsp := by
  obtain ⟨hp, hr, -, -⟩ := quiescent_iff.1 h
  simp [State.owed, inFlight_of_idle hp, hr]

/-- Under the protocol a run is over when nothing is unanswered. -/
theorem quiescent_of_unanswered_eq_zero (h : s.protocolOk = true) (hu : s.unanswered = 0) : s.quiescent = true := by
  cases hp : s.phase with
  | idle =>
    rw [unanswered_of_idle hp, List.length_eq_zero_iff] at hu
    exact quiescent_iff.2 ⟨hp, hu, (protocolOk_of_idle hp).1 h⟩
  | hashWait alg d => simp [unanswered_of_hashWait hp] at hu

/-- The turns needed end with the block's turn that sends the first response, and a round for each response after it. -/
theorem block_fairRounds_sublist_turnsNeeded (s : State) (c : Nat) :
    (.block :: fairRounds c).Sublist (s.turnsNeeded (c + 1)) := by
  cases hp : s.phase with
  | idle =>
    rw [turnsNeeded_of_idle hp, fairRounds]
    exact (List.sublist_cons_self _ _).trans (List.sublist_cons_self _ _)
  | hashWait alg d =>
    by_cases hr : s.hrsp = []
    · rw [turnsNeeded_of_asked hp hr]
      exact List.sublist_cons_self _ _
    · rw [turnsNeeded_of_answered hp hr]

theorem turnsNeeded_eq_nil_iff : s.turnsNeeded c = [] ↔ c = 0 := by
  cases c with
  | zero => simp
  | succ c =>
    have hmem : Turn.block ∈ s.turnsNeeded (c + 1) :=
      (block_fairRounds_sublist_turnsNeeded s c).mem List.mem_cons_self
    simpa using List.ne_nil_of_mem hmem

/-- The block's turn passes, or it sends a response and leaves the block `IDLE`, or it takes a request and waits for the
oracle. -/
theorem blockTurn_progress (hok : s.protocolOk = true) (hb : blockTurn s = .next t) :
    (s.blockEnabled = false ∧ t = s) ∨ (t.phase = .idle ∧ t.unanswered + 1 = s.unanswered) ∨
    (s.phase = .idle ∧ t.hrsp = [] ∧ t.unanswered = s.unanswered ∧ ∃ alg d, t.phase = .hashWait alg d) := by
  obtain hpass | ⟨f, fs, hp, hr, rfl⟩ | ⟨f, fs, q, d, hp, hr, -, -, rfl⟩ | ⟨alg, d, mac, macs, hp, -, rfl⟩ :=
    blockTurn_next_cases (fun _ _ _ => []) hb
  · exact .inl hpass
  · refine .inr (.inl ⟨rfl, ?_⟩)
    simp [unanswered_of_idle hp, hr]
  · refine .inr (.inr ⟨hp, ((protocolOk_of_idle hp).1 hok).2, ?_, q.alg, d, rfl⟩)
    simp [unanswered_of_idle hp, unanswered_of_hashWait (askOracle_phase _ q d), hr]
  · refine .inr (.inl ⟨rfl, ?_⟩)
    simp [unanswered_of_hashWait hp]

/-- A turn of the block keeps to the schedule. -/
theorem blockTurn_keeps_schedule (hok : s.protocolOk = true) (hb : blockTurn s = .next t)
    (h : (s.turnsNeeded c).Sublist (.block :: rest)) (hu : s.unanswered ≤ c + e) :
    ∃ c', (t.turnsNeeded c').Sublist rest ∧ t.unanswered ≤ c' + e := by
  have hprogress := blockTurn_progress hok hb
  cases c with
  | zero =>
    have hle : t.unanswered ≤ s.unanswered := by
      obtain ⟨-, rfl⟩ | ⟨-, h⟩ | ⟨-, -, h, -⟩ := hprogress <;> omega
    exact ⟨0, List.nil_sublist _, hle.trans hu⟩
  | succ c =>
    have hafter : (fairRounds c).Sublist rest :=
      List.cons_sublist_cons.1 ((block_fairRounds_sublist_turnsNeeded s c).trans h)
    obtain ⟨hd, rfl⟩ | ⟨hp, hless⟩ | ⟨hp, hr', hsame, alg, d, hp'⟩ := hprogress
    · obtain ⟨hp, hr⟩ | ⟨alg, d, hp, hr⟩ := blockEnabled_eq_false_iff.1 hd
      · exact ⟨0, List.nil_sublist _, by simp [unanswered_of_idle hp, hr]⟩
      · rw [turnsNeeded_of_asked hp hr] at h
        refine ⟨c + 1, ?_, hu⟩
        rw [turnsNeeded_of_asked hp hr]
        exact h.of_cons_of_ne (by decide)
    · exact ⟨c, turnsNeeded_of_idle hp ▸ hafter, by omega⟩
    · rw [turnsNeeded_of_idle hp, fairRounds] at h
      refine ⟨c + 1, ?_, by omega⟩
      rw [turnsNeeded_of_asked hp' hr']
      exact List.cons_sublist_cons.1 h

@[simp] theorem submitFrame_unanswered (f : Frame) (s : State) :
    (submitFrame f s).unanswered = s.unanswered + 1 := by
  cases hp : s.phase with
  | idle => simp [unanswered_of_idle, hp]
  | hashWait alg d => simp [unanswered_of_hashWait (alg := alg) (d := d), hp]

@[simp] theorem oracleTurn_unanswered (H : Oracle) (s : State) : (oracleTurn H s).unanswered = s.unanswered := by
  unfold oracleTurn
  split <;> rfl

/-- A turn of the oracle keeps to the schedule. -/
theorem oracleTurn_keeps_schedule (hok : s.protocolOk = true) (h : (s.turnsNeeded c).Sublist (.oracle :: rest)) :
    ((oracleTurn H s).turnsNeeded c).Sublist rest := by
  cases c with
  | zero => exact List.nil_sublist _
  | succ c =>
    cases hp : s.phase with
    | idle =>
      rw [oracleTurn_of_nil ((protocolOk_of_idle hp).1 hok).1]
      rw [turnsNeeded_of_idle hp] at h ⊢
      exact h.of_cons_of_ne (by decide)
    | hashWait alg d =>
      obtain ⟨r, hq, hr, -⟩ | ⟨hq, mac, hr⟩ := (protocolOk_of_hashWait hp).1 hok
      · rw [turnsNeeded_of_asked hp hr] at h
        rw [oracleTurn_of_cons hq, turnsNeeded_of_answered (s := { s with hreq := [], hrsp := _, .. }) hp (by simp)]
        exact List.cons_sublist_cons.1 h
      · rw [oracleTurn_of_nil hq]
        rw [turnsNeeded_of_answered hp (by simp [hr])] at h ⊢
        exact h.of_cons_of_ne (by decide)

/-- Every step but the reset event keeps to the schedule; a frame submitted may stay unanswered. -/
theorem State.OnSchedule.step (h : s.OnSchedule c e) (hok : s.protocolOk = true) (hn : s.resetting = false)
    (hs : stepWith H s = .next t) : ∃ c', t.OnSchedule c' (e + s.submitting.length) := by
  obtain ⟨henough, hcount⟩ := h
  have hmore : s.unanswered ≤ c + (e + s.submitting.length) := by omega
  obtain ⟨rest, hT, hb⟩ | ⟨rest, hT, rfl⟩ | ⟨rest, f, hT, rfl⟩ | ⟨rest, hT, rfl⟩ | ⟨rest, hT, -⟩ := stepWith_cases hs
  · have hblock : (s.turnsNeeded c).Sublist (.block :: rest) := by
      obtain hT | ⟨hT, rfl⟩ := hT
      · exact hT ▸ henough
      · exact (hT ▸ henough).trans (List.nil_sublist _)
    obtain ⟨c', henough', hcount'⟩ := blockTurn_keeps_schedule (s := { s with turns := rest }) hok hb hblock hcount
    have hrest : t.turns = rest := blockTurn_turns hb
    exact ⟨c', hrest ▸ henough', by simpa [hT.host_idle.1] using hcount'⟩
  · have hkeep := oracleTurn_keeps_schedule (H := H) (s := { s with turns := rest }) hok (hT ▸ henough)
    exact ⟨c, by simpa using hkeep, (oracleTurn_unanswered H _).trans_le hmore⟩
  · refine ⟨c, turnsNeeded_sublist_tail (by simp) (by simp) (hT ▸ henough), ?_⟩
    have hone : s.submitting.length = 1 := by simp [State.submitting, hT]
    have hsubmit := submitFrame_unanswered f { s with turns := rest }
    have hsame : ({ s with turns := rest } : State).unanswered = s.unanswered := rfl
    omega
  · exact ⟨c, turnsNeeded_sublist_tail (by simp) (by simp) (hT ▸ henough), hmore⟩
  · simp [State.resetting, hT] at hn

/-- Run to the end of its turns, a state on a schedule leaves at most `e` of its responses unanswered, and those of the
frames submitted meanwhile. -/
theorem State.OnSchedule.run (h : s.OnSchedule c e) (hok : s.protocolOk = true) (hn : Turn.reset ∉ s.turns) :
    ∃ sent got t, History H s sent got t ∧ runWith H s.turns.length s = .next t ∧
      t.unanswered ≤ e + sent.length := by
  generalize hT : s.turns = turns at hn
  induction turns generalizing s c e with
  | nil =>
    have hc : c = 0 := turnsNeeded_eq_nil_iff.1 (List.sublist_nil.1 (hT ▸ h.enough))
    exact ⟨[], [], s, .start s, rfl, by simpa [hc] using h.count⟩
  | cons a rest ih =>
    obtain ⟨u, hu⟩ := stepWith_next H s
    have hreset : s.resetting = false := by
      have : a ≠ .reset := fun ha => hn (ha ▸ List.mem_cons_self)
      simpa [State.resetting, hT] using this
    obtain ⟨c', hsched⟩ := h.step hok hreset hu
    have hrest : u.turns = rest := by rw [stepWith_turns hu, hT, List.tail_cons]
    obtain ⟨sent, got, t, hist, hrun, hleft⟩ :=
      ih hsched (stepWith_protocolOk hok hu) hrest (fun h => hn (List.mem_cons_of_mem _ h))
    refine ⟨_, _, t, hist.cons hreset hu, (runWith_succ hu).trans hrun, ?_⟩
    rw [List.length_append]
    omega

/-- The responses owed at the start of a run stand first in what was collected and sent, when no more are unanswered at
its end than frames were submitted. -/
theorem History.owed_prefix {sent got : List Frame} (hist : History H s sent got t) (hok : s.protocolOk = true)
    (hleft : t.unanswered ≤ sent.length) : s.owed H <+: got ++ t.rsp := by
  have hcons := hist.owed hok
  have howed : s.owed H <+: got ++ t.owed H := ⟨_, hcons.symm⟩
  have hsent : got ++ t.rsp <+: got ++ t.owed H := by
    rw [State.owed, List.append_assoc t.rsp, ← List.append_assoc got]
    exact List.prefix_append _ _
  refine List.prefix_of_prefix_length_le howed hsent ?_
  have hlen := congrArg List.length hcons
  simp only [List.length_append, List.length_map, length_owed (hist.protocolOk hok)] at hlen
  rw [List.length_append]
  omega

/-- `c` rounds from a state with at most `c` unanswered responses end the run with all of them sent. -/
theorem fairRounds_deliver (H : Oracle) (hok : s.protocolOk = true) (hT : s.turns = fairRounds c)
    (hu : s.unanswered ≤ c) :
    ∃ t, runWith H (3 * c) s = .next t ∧ t.quiescent = true ∧ t.rsp = s.owed H := by
  have hquiet : ∀ a ∈ s.turns, a = .block ∨ a = .oracle := fun a ha => mem_fairRounds (hT ▸ ha)
  have hsched : s.OnSchedule c 0 := ⟨hT ▸ turnsNeeded_sublist_fairRounds s c, hu⟩
  have hn : Turn.reset ∉ s.turns := fun hr => by simpa using hquiet _ hr
  obtain ⟨sent, got, t, hist, hrun, hleft⟩ := hsched.run (H := H) hok hn
  obtain ⟨rfl, rfl⟩ := hist.host_idle hquiet
  have hokt := hist.protocolOk hok
  have hzero : t.unanswered = 0 := by simpa using hleft
  rw [hT, length_fairRounds] at hrun
  have hquiescent := quiescent_of_unanswered_eq_zero hokt hzero
  exact ⟨t, hrun, hquiescent, by simpa [owed_of_quiescent hquiescent] using hist.owed hok⟩

end Schedules

/-! ### The obligations -/

/-- Settles O46: `stepWith_owed`, by the cases of whose turn it is. -/
theorem owedResponsesConserved : Obligations.OwedResponsesConserved := fun _ _ _ => stepWith_owed

/-- Settles O11: nothing is enabled, so each turn leaves the state as it is. -/
theorem disabledTurnPasses : Obligations.DisabledTurnPasses := by
  refine ⟨fun H s rest hT hd => ?_, fun H s rest hT hd => ?_, fun H s rest hT hd => ?_⟩
  · rw [stepWith_of_blocksTurn hT]
    exact blockTurn_of_disabled (s := { s with turns := rest }) hd
  · have hq : s.hreq = [] := by simpa [State.oracleEnabled] using hd
    rw [stepWith_of_turns_cons hT, takeTurn, oracleTurn_of_nil (s := { s with turns := rest }) hq]
  · rw [stepWith_of_turns_cons hT, takeTurn, collectFrame_of_nil (s := { s with turns := rest }) hd]

/-- Settles O39: what the instruction sends is the response or the oracle request of `exec_cases`. -/
theorem operationIndependentOfState : Obligations.OperationIndependentOfState := by
  intro i
  obtain ⟨r, hr⟩ | ⟨q, d, hq⟩ := exec_cases i
  · exact ⟨[r], [], .idle, rfl, fun s => by simp [hr, sendResponse]⟩
  · exact ⟨[], [q], .hashWait q.alg d, rfl, fun s => by simp [hq, askOracle]⟩

/-- Settles O40: both requests are refused alike or leave only the digest. -/
theorem keyNotKeptAfterAnswer : Obligations.KeyNotKeptAfterAnswer := by
  intro H alg digits ctr ctr' key key' s t t' hreq hkey hkey' hH ht ht'
  obtain ⟨e, hv, rfl⟩ | ⟨a, d, hv, rfl⟩ := execGen_cases ht
  all_goals rw [genValidate_eq_of_ne_nil hkey hkey'] at hv
  · obtain ⟨e', hv', rfl⟩ | ⟨a', d', hv', rfl⟩ := execGen_cases ht'
    · rw [Except.error.inj (hv.symm.trans hv')]
    · simp [hv] at hv'
  · obtain ⟨e', hv', rfl⟩ | ⟨a', d', hv', rfl⟩ := execGen_cases ht'
    · simp [hv] at hv'
    · obtain ⟨rfl, rfl⟩ := Prod.mk.inj (Except.ok.inj (hv.symm.trans hv'))
      simp only [oracleTurn_askOracle H _ d hreq, oracleAnswer, hH]

/-- Settles O47: the conservation of `OwedResponsesConserved` along a run from reset, where nothing is owed. -/
theorem responsesFollowAtomicExec : Obligations.ResponsesFollowAtomicExec := by
  intro H turns sent got t hist
  have hcons : got ++ t.owed H = sent.map (atomicExec H) := hist.owed rfl
  exact ⟨⟨_, hcons⟩, hcons⟩

/-- Settles O48: the three turns are one round, and one response is unanswered. -/
theorem oneTransactionAnswersExec : Obligations.OneTransactionAnswersExec := by
  intro H s f hp hq hr hreq hT
  have hok : s.protocolOk = true := (protocolOk_of_idle hp).2 ⟨hq, hr⟩
  have hu : s.unanswered ≤ 1 := by simp [unanswered_of_idle hp, hreq]
  obtain ⟨t, hrun, hquiet, hrsp⟩ := fairRounds_deliver (c := 1) H hok hT hu
  obtain ⟨hpt, hreqt, hqt, hrt⟩ := quiescent_iff.1 hquiet
  have hturns : t.turns = [] := by rw [runWith_turns hrun, hT]; rfl
  have howed : s.owed H = s.rsp ++ [atomicExec H f] := by simp [State.owed, inFlight_of_idle hp, hreq]
  refine hrun.trans ?_
  cases t
  simp_all

/-- Settles O49: a round for each request waiting and one more are enough for every unanswered response. -/
theorem fairTurnsDeliverEverything : Obligations.FairTurnsDeliverEverything :=
  fun H s hok hT => fairRounds_deliver H hok hT (unanswered_le s)

/-- Settles O54: after the run no more are unanswered than frames were submitted, and the responses owed at the start come
first. -/
theorem enoughRoundsAnswerWaitingRequests : Obligations.EnoughRoundsAnswerWaitingRequests := by
  intro H s hok hn hrounds
  have hsched : s.OnSchedule (s.req.length + 1) 0 :=
    ⟨(turnsNeeded_sublist_fairRounds s _).trans hrounds, unanswered_le s⟩
  obtain ⟨sent, got, t, hist, hrun, hleft⟩ := hsched.run (H := H) hok hn
  exact ⟨sent, got, t, hist, hrun, hist.owed_prefix hok (by omega)⟩

/-- Settles O1: the fields of the reset state. -/
theorem resetIsIdleWithEmptyChannels : Obligations.ResetIsIdleWithEmptyChannels :=
  ⟨reset_phase, reset_req, reset_rsp, reset_hreq, reset_hrsp⟩

/-- Settles O3: the block's turn, and any turn listed first. -/
theorem stepGivesTurnToAgent : Obligations.StepGivesTurnToAgent :=
  ⟨fun _ _ _ hT => stepWith_of_blocksTurn hT, fun _ _ _ hT => stepWith_of_turns_cons hT,
    fun _ _ _ hT => stepWith_of_turns_cons hT⟩

/-- Settles O5: ACCEPT of the frame at the head of `REQ`. -/
theorem stepRunsDecodedRequest : Obligations.StepRunsDecodedRequest := by
  intro s rest f fs i hT hp hr hd
  rw [step, stepWith_of_blocksTurn hT, blockTurn_of_idle_cons (s := { s with turns := rest }) hp hr, acceptFrame, hd]

/-- Settles O9: the oracle's turn on a channel that is not empty. -/
theorem oracleAnswersOldestRequest : Obligations.OracleAnswersOldestRequest := by
  intro H s rest r rs hT hq
  rw [stepWith_of_turns_cons hT, takeTurn, oracleTurn_of_cons (s := { s with turns := rest }) hq, oracleAnswer]

/-- Settles O10: the host's two turns. -/
theorem hostSubmitsAndCollects : Obligations.HostSubmitsAndCollects := by
  refine ⟨fun H s rest f hT => ?_, fun H s rest r rs hT hr => ?_⟩
  · rw [stepWith_of_turns_cons hT, takeTurn, submitFrame]
  · rw [stepWith_of_turns_cons hT, takeTurn, collectFrame, hr, List.tail_cons]

/-- Settles O41: the reset state is `IDLE`, and every channel is empty. -/
theorem resetMeetsInvariants : Obligations.ResetMeetsInvariants := fun _ => ⟨rfl, rfl, rfl⟩

end Sys2Proof.Machine

/-!
PROOFS of the family 20_memory.md: the byte order of the buffers, the truncation window and the part of it that reaches
the code, the formats of the responses, and what the protocol leaves in the oracle's channels. First `MemRead` byte by
byte, then the truncation, then the frames the block sends, then the obligations.
-/

namespace Sys2Proof.Machine

/-! ### `MemRead` byte by byte (00_scope.md R7, 20_memory.md R25 to R27) -/

section Reads

variable {buf : Frame} {off n : Nat}

@[simp] theorem memRead_zero (buf : Frame) (off : Nat) : memRead buf off 0 = 0 := by
  simp [memRead, slice]

/-- The first byte read is the most significant one. -/
theorem memRead_succ (h : off + n < buf.length) :
    memRead buf off (n + 1) = (byteAt buf off).toNat * 256 ^ n + memRead buf (off + 1) n := by
  have hoff : off < buf.length := by omega
  have hrest : ((buf.drop (off + 1)).take n).length = n := by simp; omega
  simp only [memRead, slice, Nat.add_sub_cancel_left]
  rw [List.drop_eq_getElem_cons hoff, List.take_succ_cons, ube_cons, hrest, byteAt, List.getD_eq_getElem _ _ hoff]

theorem memRead_one (h : off < buf.length) : memRead buf off 1 = (byteAt buf off).toNat := by
  simp [memRead_succ (n := 0) h]

theorem memRead_four (h : off + 4 ≤ buf.length) :
    memRead buf off 4 = (byteAt buf off).toNat * 2 ^ 24 + (byteAt buf (off + 1)).toNat * 2 ^ 16 +
      (byteAt buf (off + 2)).toNat * 2 ^ 8 + (byteAt buf (off + 3)).toNat := by
  rw [memRead_succ (by omega), memRead_succ (by omega), memRead_succ (by omega), memRead_one (by omega)]
  simp only [Nat.add_assoc, Nat.reduceAdd, Nat.reducePow]

theorem memRead_lt (buf : Frame) (off n : Nat) : memRead buf off n < 256 ^ n :=
  (ube_lt _).trans_le (Nat.pow_le_pow_right (by decide) (by rw [length_slice]; omega))

end Reads

/-! ### Dynamic truncation (41_otp_engine.md R91 to R93) -/

section Truncation

variable {alg : Alg} {mac : Frame}

/-- The shortest digest is that of SHA1. -/
theorem twenty_le_digestSize (alg : Alg) : 20 ≤ digestSize alg := by
  cases alg <;> decide

theorem truncOffset_le (mac : Frame) : truncOffset mac ≤ 15 := Nat.and_le_right

theorem truncOffset_eq (h : mac.length = digestSize alg) :
    truncOffset mac = (byteAt mac (mac.length - 1)).toNat % 16 := by
  have hlen := twenty_le_digestSize alg
  rw [truncOffset, memRead_one (by omega)]
  exact Nat.and_two_pow_sub_one_eq_mod _ 4

/-- The window lies inside a digest of legal length (20_memory.md R31). -/
theorem truncOffset_add_four_le (h : mac.length = digestSize alg) : truncOffset mac + 4 ≤ mac.length := by
  have hlen := twenty_le_digestSize alg
  have hoff := truncOffset_le mac
  omega

theorem truncWindow_eq (h : mac.length = digestSize alg) :
    truncWindow mac = (byteAt mac (truncOffset mac)).toNat * 2 ^ 24 + (byteAt mac (truncOffset mac + 1)).toNat * 2 ^ 16 +
      (byteAt mac (truncOffset mac + 2)).toNat * 2 ^ 8 + (byteAt mac (truncOffset mac + 3)).toNat :=
  memRead_four (truncOffset_add_four_le h)

theorem truncSnum_eq_mod (mac : Frame) : truncSnum mac = truncWindow mac % 2 ^ 31 :=
  Nat.and_two_pow_sub_one_eq_mod _ 31

/-- The mask takes away the top bit of the window's first byte and nothing else. -/
theorem truncSnum_eq (h : mac.length = digestSize alg) :
    truncSnum mac = (byteAt mac (truncOffset mac)).toNat % 128 * 2 ^ 24 +
      (byteAt mac (truncOffset mac + 1)).toNat * 2 ^ 16 + (byteAt mac (truncOffset mac + 2)).toNat * 2 ^ 8 +
      (byteAt mac (truncOffset mac + 3)).toNat := by
  have h1 := (byteAt mac (truncOffset mac + 1)).isLt
  have h2 := (byteAt mac (truncOffset mac + 2)).isLt
  have h3 := (byteAt mac (truncOffset mac + 3)).isLt
  rw [truncSnum_eq_mod, truncWindow_eq h]
  omega

theorem genFinish_of_length (d : Digits) (h : mac.length = digestSize alg) :
    genFinish alg d mac =
      .ok (BitVec.ofNat 8 (digitsNat d) :: decimalChars (digitsNat d) (truncSnum mac % 10 ^ digitsNat d)) := by
  simp [genFinish, h, otpValue]

theorem genFinish_of_wrong_length (d : Digits) (h : mac.length ≠ digestSize alg) :
    genFinish alg d mac = .error .hashOracle := by
  simp [genFinish, h]

end Truncation

/-! ### The frames the block sends (30_encoding.md R55 to R57, 60_exceptions.md R110) -/

section Responses

@[simp] theorem length_decimalChars (n v : Nat) : (decimalChars n v).length = n := by
  induction n with
  | zero => rfl
  | succ n ih => simp [decimalChars, ih]

/-- A decimal digit is sent as one of the characters '0' to '9'. -/
theorem isDecimalChar_digit {k : Nat} (h : k < 10) : isDecimalChar (BitVec.ofNat 8 (0x30 + k)) = true := by
  have hnat : (BitVec.ofNat 8 (0x30 + k)).toNat = 0x30 + k := by
    rw [BitVec.toNat_ofNat]; omega
  simp only [isDecimalChar, hnat, Bool.and_eq_true, decide_eq_true_eq]
  omega

theorem all_isDecimalChar_decimalChars (n v : Nat) : (decimalChars n v).all isDecimalChar = true := by
  induction n with
  | zero => rfl
  | succ n ih =>
    have hdigit := isDecimalChar_digit (Nat.mod_lt (v / 10 ^ n) (by decide : 10 > 0))
    simp only [decimalChars, List.all_cons, hdigit, ih, Bool.and_self]

theorem isErrorFrame_errorFrame (e : Error) : isErrorFrame (errorFrame e) = true := by
  cases e <;> decide

theorem isCounterFrame_successFrame {ctr : Frame} (h : ctr.length = 8) : isCounterFrame (successFrame ctr) = true := by
  simp [isCounterFrame, successFrame, statusOk, h]

theorem isCodeFrame_successFrame (d : Digits) (v : Nat) :
    isCodeFrame (successFrame (BitVec.ofNat 8 (digitsNat d) :: decimalChars (digitsNat d) v)) = true := by
  have hchars := all_isDecimalChar_decimalChars (digitsNat d) v
  cases d <;> simpa [isCodeFrame, successFrame, statusOk, digitsNat] using hchars

theorem isResponse_errorFrame (e : Error) : isResponse (errorFrame e) = true := by
  simp [isResponse, isErrorFrame_errorFrame e]

/-- What a `CTRENC` answers is an error or the 8 bytes of a counter. -/
theorem isResponse_ctrencOutcome (time epoch period : Seconds) :
    isResponse (responseFrame (ctrencOutcome time epoch period)) = true := by
  unfold ctrencOutcome
  split
  · exact isResponse_errorFrame _
  · split
    · exact isResponse_errorFrame _
    · rw [memWrite_whole (by simp), responseFrame, isResponse, isCounterFrame_successFrame (length_beBytes 8 _)]
      simp

/-- What a `GEN` answers to the digest is an error or a code of 6 or 8 characters. -/
theorem isResponse_genFinish (alg : Alg) (d : Digits) (mac : Frame) :
    isResponse (responseFrame (genFinish alg d mac)) = true := by
  by_cases hlen : mac.length = digestSize alg
  · rw [genFinish_of_length d hlen, responseFrame, isResponse, isCodeFrame_successFrame]
    simp
  · rw [genFinish_of_wrong_length d hlen]
    exact isResponse_errorFrame _

theorem isResponse_atomicResponse (H : Oracle) (i : Instr) : isResponse (atomicResponse H i) = true := by
  cases i with
  | ctrenc time epoch period => exact isResponse_ctrencOutcome time epoch period
  | gen alg digits ctr key =>
    cases hv : genValidate alg digits key with
    | error e => simpa only [atomicResponse, hv] using isResponse_errorFrame e
    | ok p => simpa only [atomicResponse, hv] using isResponse_genFinish p.1 p.2 (H p.1 key ctr)

/-- `Exec` of any frame is a whole response. -/
theorem isResponse_atomicExec (H : Oracle) (f : Frame) : isResponse (atomicExec H f) = true := by
  unfold atomicExec
  split
  · exact isResponse_errorFrame _
  · exact isResponse_atomicResponse H _

variable {H : Oracle} {s t : State}

theorem responsesOk_iff : s.responsesOk = true ↔ ∀ r ∈ s.rsp, isResponse r = true := List.all_eq_true

theorem sendResponse_responsesOk {r : Frame} (hr : isResponse r = true) (h : s.responsesOk = true) :
    (sendResponse r s).responsesOk = true := by
  simpa [State.responsesOk, hr] using h

/-- The block sends nothing but `Exec` of an accepted frame or the end of a `GEN`. -/
theorem blockTurn_responsesOk (h : s.responsesOk = true) (hb : blockTurn s = .next t) : t.responsesOk = true := by
  obtain ⟨-, rfl⟩ | ⟨f, fs, -, -, rfl⟩ | ⟨f, fs, q, d, -, -, -, -, rfl⟩ | ⟨alg, d, mac, macs, -, -, rfl⟩ :=
    blockTurn_next_cases (fun _ _ _ => []) hb
  · exact h
  · exact sendResponse_responsesOk (s := { s with req := fs }) (isResponse_atomicExec _ f) h
  · exact h
  · exact sendResponse_responsesOk (s := { s with hrsp := macs }) (isResponse_genFinish alg d mac) h

@[simp] theorem oracleTurn_rsp (H : Oracle) (s : State) : (oracleTurn H s).rsp = s.rsp := by
  unfold oracleTurn
  split <;> rfl

/-- Every step keeps the responses whole. -/
theorem stepWith_responsesOk (h : s.responsesOk = true) (hs : stepWith H s = .next t) : t.responsesOk = true := by
  obtain ⟨rest, -, hb⟩ | ⟨rest, -, rfl⟩ | ⟨_, _, -, rfl⟩ | ⟨_, -, rfl⟩ | ⟨_, -, rfl⟩ := stepWith_cases hs
  · exact blockTurn_responsesOk (s := { s with turns := rest }) h hb
  · simpa [State.responsesOk] using h
  · exact h
  · exact responsesOk_iff.2 fun r hr => responsesOk_iff.1 h r (List.mem_of_mem_tail hr)
  · rfl

end Responses

/-! ### The obligations -/

/-- Settles O42: the protocol is kept by the turn of each agent. -/
theorem protocolInvariantKept : Obligations.ProtocolInvariantKept := fun _ _ _ => stepWith_protocolOk

/-- Settles O43: the block adds only whole responses, and the other agents add none. -/
theorem responseFormatsKept : Obligations.ResponseFormatsKept := fun _ _ _ => stepWith_responsesOk

/-- Settles O30: the window is inside the digest, and its four bytes are read one by one. -/
theorem windowIsBigEndian : Obligations.WindowIsBigEndian :=
  fun _ mac hlen => ⟨truncWindow_eq hlen, memRead_lt mac (truncOffset mac) 4⟩

/-- Settles O36: the result depends on the 31 bits alone, and these on the four bytes at the offset. -/
theorem onlyNibbleAndWindowAffectCode : Obligations.OnlyNibbleAndWindowAffectCode := by
  intro alg d mac mac' o hlen hlen' ho ho' hfirst hothers
  have hoff : truncOffset mac = o := (truncOffset_eq hlen).trans ho
  have hoff' : truncOffset mac' = o := (truncOffset_eq hlen').trans ho'
  have hsnum : truncSnum mac = truncSnum mac' := by
    rw [truncSnum_eq hlen, truncSnum_eq hlen', hoff, hoff', hfirst, hothers 1 (by decide), hothers 2 (by decide),
      hothers 3 (by decide)]
  rw [genFinish_of_length d hlen, genFinish_of_length d hlen', hsnum]

/-- Settles O44: when `IDLE` both channels are empty; in `HASH_WAIT` a request out and an answer waiting exclude each
other. -/
theorem atMostOneOracleRequestOutstanding : Obligations.AtMostOneOracleRequestOutstanding := by
  intro s h
  cases hp : s.phase with
  | idle =>
    obtain ⟨hq, hr⟩ := (protocolOk_of_idle hp).1 h
    simp [State.oracleEnabled, hq, hr]
  | hashWait alg d =>
    obtain ⟨r, hq, hr, -⟩ | ⟨hq, mac, hr⟩ := (protocolOk_of_hashWait hp).1 h
    · simp [State.blockEnabled, hp, hq, hr]
    · simp [State.oracleEnabled, hq, hr]

end Sys2Proof.Machine

/-!
PROOFS of the family 30_encoding.md: `Decode` and the encoder, the assembler's lines, and the characters of a code.
First the slices a frame is cut into, then what `Decode` answers on each byte 0, then the two round trips, then the
responses that the host's lines read, then the obligations.
-/

namespace Sys2Proof.Machine

/-! ### Cutting a frame into its fields (00_scope.md R5) -/

section Slices

variable {f : Frame} {a b c : Nat}

theorem slice_whole (h : f.length = b) : slice f 0 b = f := by
  simp [slice, ← h]

/-- Two fields side by side are one slice. -/
theorem slice_append_slice (hab : a ≤ b) (hbc : b ≤ c) : slice f a b ++ slice f b c = slice f a c := by
  have hdrop : f.drop b = (f.drop a).drop (b - a) := by rw [List.drop_drop, Nat.add_sub_cancel' hab]
  have hlen : c - a = (b - a) + (c - b) := by omega
  rw [slice, slice, slice, hdrop, hlen, List.take_add]

/-- A byte field and the field after it are one slice. -/
theorem byteAt_cons_slice (hf : a < f.length) (hab : a < b) : byteAt f a :: slice f (a + 1) b = slice f a b := by
  have hlen : b - a = (b - (a + 1)) + 1 := by omega
  rw [slice, slice, hlen, List.drop_eq_getElem_cons hf, List.take_succ_cons, byteAt, List.getD_eq_getElem _ _ hf]

/-- A field is found at the offset at which it was written. -/
theorem slice_eq_of_append {pre field post : Frame} (hf : f = pre ++ (field ++ post)) (ha : pre.length = a)
    (hb : a + field.length = b) : slice f a b = field := by
  subst hf ha hb
  simp [slice]

theorem head?_eq_byteAt_zero (hf : f ≠ []) : f.head? = some (byteAt f 0) := by
  obtain ⟨x, xs, rfl⟩ := List.exists_cons_of_ne_nil hf
  rfl

theorem eq_byteAt_zero_cons_slice (hf : f ≠ []) : f = byteAt f 0 :: slice f 1 f.length := by
  have hpos := List.length_pos_iff.2 hf
  rw [byteAt_cons_slice hpos hpos, slice_whole rfl]

end Slices

/-! ### The fields of a request frame (30_encoding.md R52) -/

section Fields

variable {f : Frame} {a : Nat}

/-- `keylen` is bytes 11 and 12, the first the more significant. -/
theorem keylenOf_eq (h : 13 ≤ f.length) : keylenOf f = (byteAt f 11).toNat * 256 + (byteAt f 12).toNat := by
  have hread : keylenOf f = memRead f 11 2 := rfl
  rw [hread, memRead_succ (by omega), memRead_one (by omega), Nat.pow_one]

theorem beBytes_keylenOf (h : 13 ≤ f.length) : beBytes 2 (keylenOf f) = slice f 11 13 := by
  have hbytes := beBytes_ube (slice f 11 13)
  rwa [length_slice_of_le h] at hbytes

/-- A signed field has the signed value of its eight bytes. -/
theorem toInt_secondsAt (h : a + 8 ≤ f.length) : (secondsAt f a).toInt = sbe (slice f a (a + 8)) :=
  toInt_ofInt_sbe (by rw [length_slice_of_le h, Nat.add_sub_cancel_left])

/-- The encoder writes a signed field back as it stood. -/
theorem beBytes_secondsAt (h : a + 8 ≤ f.length) : beBytes 8 (secondsAt f a).toNat = slice f a (a + 8) := by
  have hlen : (slice f a (a + 8)).length = 8 := by rw [length_slice_of_le h, Nat.add_sub_cancel_left]
  have hlt : ube (slice f a (a + 8)) < 2 ^ 64 := (ube_lt _).trans_eq (by rw [hlen]; rfl)
  have hbytes := beBytes_ube (slice f a (a + 8))
  rw [hlen] at hbytes
  rw [secondsAt, ofInt_sbe hlen, BitVec.toNat_ofNat, Nat.mod_eq_of_lt hlt, hbytes]

/-- `Decode` reads back the signed field that the encoder wrote. -/
theorem secondsAt_of_slice {v : Seconds} (h : slice f a (a + 8) = beBytes 8 v.toNat) : secondsAt f a = v := by
  rw [secondsAt, h, ofInt_sbe (length_beBytes 8 _), ube_beBytes v.isLt, BitVec.ofNat_toNat, BitVec.setWidth_eq]

end Fields

/-! ### What `Decode` answers on each byte 0 (30_encoding.md R50, R54) -/

section Decode

variable {f : Frame}

theorem decode_of_ctrenc (h : f.head? = some 0x01) :
    decode f = if f.length = 25 then .ok (.ctrenc (secondsAt f 1) (secondsAt f 9) (secondsAt f 17))
      else .error .ctrencLength := by
  obtain ⟨rest, rfl⟩ := List.head?_eq_some_iff.1 h
  rw [decode, opCtrenc, if_pos rfl, ite_not]

theorem decode_of_gen (h : f.head? = some 0x02) :
    decode f = if f.length < 13 then .error .genHeader
      else if f.length = 13 + keylenOf f then
        .ok (.gen (byteAt f 1) (byteAt f 2) (slice f 3 11) (slice f 13 (13 + keylenOf f)))
      else .error .genLength := by
  obtain ⟨rest, rfl⟩ := List.head?_eq_some_iff.1 h
  rw [decode, opCtrenc, opGen, if_neg (by decide), if_pos rfl, ite_not]

theorem decode_of_other {b : Byte} (h : f.head? = some b) (h1 : b ≠ 0x01) (h2 : b ≠ 0x02) :
    decode f = .error .opcode := by
  obtain ⟨rest, rfl⟩ := List.head?_eq_some_iff.1 h
  rw [decode, opCtrenc, opGen, if_neg h1, if_neg h2]

theorem decode_ctrenc_of_length (h : f.head? = some 0x01) (hlen : f.length = 25) :
    decode f = .ok (.ctrenc (secondsAt f 1) (secondsAt f 9) (secondsAt f 17)) := by
  rw [decode_of_ctrenc h, if_pos hlen]

theorem decode_gen_of_length (h : f.head? = some 0x02) (hlen : f.length = 13 + keylenOf f) :
    decode f = .ok (.gen (byteAt f 1) (byteAt f 2) (slice f 3 11) (slice f 13 (13 + keylenOf f))) := by
  rw [decode_of_gen h, if_neg (by omega), if_pos hlen]

end Decode

/-! ### The two round trips (30_encoding.md R48 to R52) -/

section RoundTrips

theorem decode_encode_ctrenc (time epoch period : Seconds) :
    decode (encode (.ctrenc time epoch period)) = .ok (.ctrenc time epoch period) := by
  obtain ⟨hhead, hlen⟩ := Laws.EncodedShape.ctrenc time epoch period rfl
  have htime : secondsAt (encode (.ctrenc time epoch period)) 1 = time := secondsAt_of_slice <|
    slice_eq_of_append (pre := [opCtrenc]) (post := beBytes 8 epoch.toNat ++ beBytes 8 period.toNat)
      (by simp [encode]) (by simp) (by simp)
  have hepoch : secondsAt (encode (.ctrenc time epoch period)) 9 = epoch := secondsAt_of_slice <|
    slice_eq_of_append (pre := opCtrenc :: beBytes 8 time.toNat) (post := beBytes 8 period.toNat)
      (by simp [encode]) (by simp) (by simp)
  have hperiod : secondsAt (encode (.ctrenc time epoch period)) 17 = period := secondsAt_of_slice <|
    slice_eq_of_append (pre := opCtrenc :: (beBytes 8 time.toNat ++ beBytes 8 epoch.toNat)) (post := [])
      (by simp [encode]) (by simp) (by simp)
  rw [decode_ctrenc_of_length hhead hlen, htime, hepoch, hperiod]

theorem decode_encode_gen (alg digits : Byte) {ctr key : Frame} (hctr : ctr.length = 8) (hkey : key.length ≤ 65535) :
    decode (encode (.gen alg digits ctr key)) = .ok (.gen alg digits ctr key) := by
  obtain ⟨hhead, hlen⟩ := Laws.EncodedShape.gen alg digits ctr key ((wellFormed_gen _ _ _ _).2 ⟨hctr, hkey⟩)
  have hctrSlice : slice (encode (.gen alg digits ctr key)) 3 11 = ctr :=
    slice_eq_of_append (pre := [opGen, alg, digits]) (post := beBytes 2 key.length ++ key)
      (by simp [encode]) rfl (by simp [hctr])
  have hkeylenSlice : slice (encode (.gen alg digits ctr key)) 11 13 = beBytes 2 key.length :=
    slice_eq_of_append (pre := opGen :: alg :: digits :: ctr) (post := key)
      (by simp [encode]) (by simp [hctr]) (by simp)
  have hkeylen : keylenOf (encode (.gen alg digits ctr key)) = key.length := by
    rw [keylenOf, hkeylenSlice, ube_beBytes (by omega)]
  have hkeySlice : slice (encode (.gen alg digits ctr key)) 13 (13 + key.length) = key :=
    slice_eq_of_append (pre := opGen :: alg :: digits :: (ctr ++ beBytes 2 key.length)) (post := [])
      (by simp [encode]) (by simp [hctr]) rfl
  rw [decode_gen_of_length hhead (by rw [hlen, hkeylen]), hkeylen, hctrSlice, hkeySlice]
  rfl

/-- `Decode` undoes the encoder: each field is read at the offset at which it was written. -/
theorem decode_encode {i : Instr} (h : i.wellFormed = true) : decode (encode i) = .ok i := by
  cases i with
  | ctrenc time epoch period => exact decode_encode_ctrenc time epoch period
  | gen alg digits ctr key =>
    obtain ⟨hctr, hkey⟩ := (wellFormed_gen _ _ _ _).1 h
    exact decode_encode_gen alg digits hctr hkey

theorem encode_ctrenc_of_fields {f : Frame} (hhead : byteAt f 0 = opCtrenc) (hlen : f.length = 25) :
    encode (.ctrenc (secondsAt f 1) (secondsAt f 9) (secondsAt f 17)) = f := by
  have hne : f ≠ [] := List.length_pos_iff.1 (by omega)
  calc encode (.ctrenc (secondsAt f 1) (secondsAt f 9) (secondsAt f 17))
      = opCtrenc :: (slice f 1 9 ++ slice f 9 17 ++ slice f 17 25) := by
        rw [encode, beBytes_secondsAt (by omega), beBytes_secondsAt (by omega), beBytes_secondsAt (by omega)]
    _ = byteAt f 0 :: slice f 1 f.length := by
        rw [slice_append_slice (by decide) (by decide), slice_append_slice (by decide) (by decide), hhead, hlen]
    _ = f := (eq_byteAt_zero_cons_slice hne).symm

theorem encode_gen_of_fields {f : Frame} (hhead : byteAt f 0 = opGen) (hlen : f.length = 13 + keylenOf f) :
    encode (.gen (byteAt f 1) (byteAt f 2) (slice f 3 11) (slice f 13 (13 + keylenOf f))) = f := by
  have hne : f ≠ [] := List.length_pos_iff.1 (by omega)
  have hkey : (slice f 13 (13 + keylenOf f)).length = keylenOf f := by
    rw [length_slice_of_le (by omega), Nat.add_sub_cancel_left]
  calc encode (.gen (byteAt f 1) (byteAt f 2) (slice f 3 11) (slice f 13 (13 + keylenOf f)))
      = opGen :: byteAt f 1 :: byteAt f 2 :: (slice f 3 11 ++ slice f 11 13 ++ slice f 13 (13 + keylenOf f)) := by
        rw [encode, hkey, beBytes_keylenOf (by omega)]
    _ = byteAt f 0 :: slice f 1 f.length := by
        rw [slice_append_slice (by decide) (by decide), slice_append_slice (by decide) (by omega),
          byteAt_cons_slice (by omega) (by omega), byteAt_cons_slice (by omega) (by omega), hhead, ← hlen]
    _ = f := (eq_byteAt_zero_cons_slice hne).symm

end RoundTrips

/-! ### The characters of a code (41_otp_engine.md R95, 30_encoding.md R57) -/

section Code

/-- The character of a decimal digit is 0x30 plus its value. -/
theorem toNat_digit {k : Nat} (h : k < 10) : (BitVec.ofNat 8 (0x30 + k)).toNat = 0x30 + k := by
  rw [BitVec.toNat_ofNat]
  omega

/-- Character i of n is the digit of weight 10^(n−1−i). -/
theorem byteAt_decimalChars {n i : Nat} (v : Nat) (h : i < n) :
    byteAt (decimalChars n v) i = BitVec.ofNat 8 (0x30 + v / 10 ^ (n - 1 - i) % 10) := by
  induction n generalizing i with
  | zero => omega
  | succ n ih =>
    cases i with
    | zero => rfl
    | succ i =>
      have hweight : n + 1 - 1 - (i + 1) = n - 1 - i := by omega
      rw [hweight, ← ih (by omega)]
      rfl

/-- The two digit counts by their numbers. -/
theorem digitsNat_of_mem {d : Digits} {n : Nat} (h : (d, n) ∈ [(Digits.six, 6), (.eight, 8)]) : digitsNat d = n := by
  cases d <;> simp_all [digitsNat]

theorem otpValue_eq {alg : Alg} {mac : Frame} (d : Digits) (h : mac.length = digestSize alg) :
    otpValue d mac = ube (slice mac ((byteAt mac (mac.length - 1)).toNat % 16)
      ((byteAt mac (mac.length - 1)).toNat % 16 + 4)) % 2 ^ 31 % 10 ^ digitsNat d := by
  rw [otpValue, truncSnum_eq_mod, truncWindow, memRead, truncOffset_eq h]

/-- FINISH takes the head of `HRSP`. -/
theorem blockTurn_of_hashWait_cons {s : State} {alg : Alg} {d : Digits} {mac : Frame} {macs : List Frame}
    (hp : s.phase = .hashWait alg d) (hr : s.hrsp = mac :: macs) :
    blockTurn s = .next (sendResponse (responseFrame (genFinish alg d mac)) { s with hrsp := macs }) := by
  simp only [blockTurn, hp, hr, finishGen, conclude_eq]

end Code

/-! ### What a `CTRENC` answers (40_counter_codec.md R71 to R76) -/

section Counter

variable {time epoch period : Seconds}

/-- The range of a signed 64-bit field (00_scope.md R4). -/
theorem seconds_range (v : Seconds) : -2 ^ 63 ≤ v.toInt ∧ v.toInt < 2 ^ 63 :=
  ⟨BitVec.le_toInt v, BitVec.toInt_lt⟩

/-- The counter is the floor of the exact quotient. -/
theorem counterValue_eq_div {t e p : Int} (he : e ≤ t) (hp : 0 < p) : (counterValue t e p : Int) = (t - e) / p := by
  rw [counterValue, Int.natCast_div, Int.toNat_of_nonneg (by omega), Int.toNat_of_nonneg (by omega)]

/-- The counter of any two 64-bit times fits its 8 bytes. -/
theorem counterValue_lt (time epoch : Seconds) (p : Int) : counterValue time.toInt epoch.toInt p < 256 ^ 8 := by
  have ht := seconds_range time
  have he := seconds_range epoch
  have hquot : counterValue time.toInt epoch.toInt p ≤ (time.toInt - epoch.toInt).toNat := Nat.div_le_self _ _
  omega

theorem ctrencOutcome_of_lt (h : time.toInt < epoch.toInt) : ctrencOutcome time epoch period = .error .invalidTime := by
  rw [ctrencOutcome, if_pos h]

theorem ctrencOutcome_of_nonpos (h : epoch.toInt ≤ time.toInt) (hp : period.toInt ≤ 0) :
    ctrencOutcome time epoch period = .error .invalidConfig := by
  rw [ctrencOutcome, if_neg (by omega), if_pos hp]

theorem ctrencOutcome_of_pos (h : epoch.toInt ≤ time.toInt) (hp : 0 < period.toInt) :
    ctrencOutcome time epoch period = .ok (beBytes 8 (counterValue time.toInt epoch.toInt period.toInt)) := by
  rw [ctrencOutcome, if_neg (by omega), if_neg (by omega), memWrite_whole (List.length_replicate ..)]

end Counter

/-! ### The counter the host reads in a response (30_encoding.md R56, R60) -/

section RcCounter

theorem rcCounter_errorFrame (e : Error) : rcCounter (errorFrame e) = none := by
  simp [rcCounter, errorFrame]

theorem rcCounter_successFrame (result : Frame) :
    rcCounter (successFrame result) = if result.length = 8 then some result else none := by
  simp [rcCounter, successFrame]

/-- A code is 7 or 9 bytes with its digit count, so no `RG` frame is read as a counter. -/
theorem rcCounter_genFinish (alg : Alg) (d : Digits) (mac : Frame) :
    rcCounter (responseFrame (genFinish alg d mac)) = none := by
  by_cases hlen : mac.length = digestSize alg
  · rw [genFinish_of_length d hlen, responseFrame, rcCounter_successFrame, if_neg]
    cases d <;> simp [digitsNat]
  · rw [genFinish_of_wrong_length d hlen]
    exact rcCounter_errorFrame _

theorem rcCounter_atomicResponse_gen (H : Oracle) (alg digits : Byte) (ctr key : Frame) :
    rcCounter (atomicResponse H (.gen alg digits ctr key)) = none := by
  cases hv : genValidate alg digits key with
  | error e => simpa only [atomicResponse, hv] using rcCounter_errorFrame e
  | ok p => simpa only [atomicResponse, hv] using rcCounter_genFinish p.1 p.2 (H p.1 key ctr)

end RcCounter

/-! ### The assembler's lines (30_encoding.md R60, R63) -/

section Lines

variable {H : Oracle} {last : Option Frame}

/-- Every 64-bit field can be written as an integer operand. -/
theorem asmSeconds_toInt (v : Seconds) : asmSeconds v.toInt = some v := by
  rw [asmSeconds, if_pos (seconds_range v), BitVec.ofInt_toInt]

theorem asmDigits_toNat (b : Byte) : asmDigits (b.toNat : Int) = some b := by
  have hb := b.isLt
  rw [asmDigits, if_pos (by omega), BitVec.ofInt_natCast, BitVec.ofNat_toNat, BitVec.setWidth_eq]

theorem assembleCtrenc_toInt (time epoch period : Seconds) :
    assembleCtrenc time.toInt (some epoch.toInt) (some period.toInt) = some (.ctrenc time epoch period) := by
  simp only [assembleCtrenc, Option.getD_some, asmSeconds_toInt, Option.bind_some]

theorem assembleGen_toNat (alg : AlgOperand) {key : Frame} (digits : Byte) (hkey : key.length ≤ 65535) :
    assembleGen alg key (some (digits.toNat : Int)) = some fun ctr => .gen (algByte alg) digits ctr key := by
  have hasm : asmKey key = some key := by rw [asmKey, keyFits, if_pos (decide_eq_true hkey)]
  simp only [assembleGen, hasm, Option.getD_some, asmDigits_toNat, Option.bind_some]

/-- `Exec` of the frame of a well-formed instruction is the response of that instruction (10_state.md R24). -/
theorem atomicExec_encode (H : Oracle) {i : Instr} (h : i.wellFormed = true) :
    atomicExec H (encode i) = atomicResponse H i := by
  rw [atomicExec, decode_encode h]

theorem atomicExec_encode_ctrenc (H : Oracle) (time epoch period : Seconds) :
    atomicExec H (encode (.ctrenc time epoch period)) = responseFrame (ctrencOutcome time epoch period) :=
  atomicExec_encode H (wellFormed_ctrenc _ _ _)

/-- A `GEN` leaves `$ctr` as it was. -/
theorem runRequest_gen (alg digits : Byte) {ctr key : Frame} (hctr : ctr.length = 8) (hkey : key.length ≤ 65535) :
    runRequest H last (.gen alg digits ctr key) =
      { requests := [encode (.gen alg digits ctr key)], responses := [atomicExec H (encode (.gen alg digits ctr key))],
        lastCtr := last } := by
  have hnone : rcCounter (atomicExec H (encode (.gen alg digits ctr key))) = none := by
    rw [atomicExec_encode H ((wellFormed_gen _ _ _ _).2 ⟨hctr, hkey⟩), rcCounter_atomicResponse_gen]
  simp only [runRequest, hnone, Option.none_or]

/-- A `HOTP` line is the `GEN` line of its count, if the count fits 8 bytes. -/
theorem runLine_hotp (alg : AlgOperand) (key : Frame) (count : Nat) (digits : Option Int) :
    runLine H last (.hotp alg key count digits) =
      if count < 2 ^ 64 then runLine H last (.gen alg key (.bytes (beBytes 8 count)) digits) else none := by
  by_cases hcount : count < 2 ^ 64 <;> simp only [runLine, expandHotp, hcount, if_true, if_false]

variable {alg : AlgOperand} {key : Frame} {time epoch period : Seconds} {digits : Byte}

/-- Where the `CTRENC` of a `TOTP` line ends in an error, the host stops. -/
theorem runTotp_of_error {e : Error} (hkey : key.length ≤ 65535) (h : ctrencOutcome time epoch period = .error e) :
    runTotp H last alg key time.toInt (some epoch.toInt) (some period.toInt) (some (digits.toNat : Int)) =
      some { requests := [encode (.ctrenc time epoch period)], responses := [errorFrame e], lastCtr := last } := by
  simp only [runTotp, assembleCtrenc_toInt, assembleGen_toNat alg digits hkey, Option.bind_some, runRequest,
    atomicExec_encode_ctrenc, h, responseFrame, rcCounter_errorFrame, Option.none_or]

/-- Where the `CTRENC` of a `TOTP` line answers a counter, the host submits the `GEN` of that counter. -/
theorem runTotp_of_ok {ctr : Frame} (hkey : key.length ≤ 65535) (h : ctrencOutcome time epoch period = .ok ctr)
    (hctr : ctr.length = 8) :
    runTotp H last alg key time.toInt (some epoch.toInt) (some period.toInt) (some (digits.toNat : Int)) =
      some { requests := [encode (.ctrenc time epoch period), encode (.gen (algByte alg) digits ctr key)],
             responses := [successFrame ctr, atomicExec H (encode (.gen (algByte alg) digits ctr key))],
             lastCtr := some ctr } := by
  have hctrenc : atomicExec H (encode (.ctrenc time epoch period)) = successFrame ctr := by
    rw [atomicExec_encode_ctrenc, h, responseFrame]
  have hread : rcCounter (successFrame ctr) = some ctr := by rw [rcCounter_successFrame, if_pos hctr]
  have hfirst : runRequest H last (.ctrenc time epoch period) =
      { requests := [encode (.ctrenc time epoch period)], responses := [successFrame ctr], lastCtr := some ctr } := by
    simp only [runRequest, hctrenc, hread, Option.some_or]
  simp only [runTotp, assembleCtrenc_toInt, assembleGen_toNat alg digits hkey, Option.bind_some, hfirst, hctrenc, hread,
    runRequest_gen (algByte alg) digits hctr hkey, LineRun.append, List.cons_append, List.nil_append]

end Lines

/-! ### The obligations -/

/-- Settles O12: each field is read at the offset at which the encoder wrote it. -/
theorem decodeOfEncode : Obligations.DecodeOfEncode := fun _ => decode_encode

/-- Settles O13: the fields `Decode` reads lie side by side and cover the frame. -/
theorem encodeOfDecode : Obligations.EncodeOfDecode := by
  intro f i h
  obtain ⟨rest, rfl, hlen, rfl⟩ | ⟨rest, rfl, -, hlen, rfl⟩ := decode_ok_cases h
  · exact ⟨wellFormed_ctrenc _ _ _, encode_ctrenc_of_fields rfl hlen⟩
  · exact ⟨(wellFormed_gen _ _ _ _).2 (decode_gen_fits h), encode_gen_of_fields rfl hlen⟩

/-- Settles O14: byte 0 picks the row of the table, and in its row the length decides. -/
theorem illegalFramesExactly : Obligations.IllegalFramesExactly := by
  intro f
  obtain rfl | hne := eq_or_ne f []
  · exact ⟨fun _ => .inl rfl, fun _ => ⟨.emptyFrame, rfl⟩⟩
  have hhead := head?_eq_byteAt_zero hne
  by_cases h1 : byteAt f 0 = 0x01
  · rw [h1] at hhead
    by_cases hlen : f.length = 25 <;> simp [decode_of_ctrenc hhead, hne, h1, hlen]
  by_cases h2 : byteAt f 0 = 0x02
  · rw [h2] at hhead
    rw [← keylenOf]
    by_cases hshort : f.length < 13
    · simp [decode_of_gen hhead, h2, hshort]
    · by_cases hlen : f.length = 13 + keylenOf f <;> simp [decode_of_gen hhead, hne, h2, hshort, hlen]
  · exact ⟨fun _ => .inr (.inl ⟨h1, h2⟩), fun _ => ⟨_, decode_of_other hhead h1 h2⟩⟩

/-- Settles O16: the fields are those of `Decode`, and a field of n bytes is below 256^n. -/
theorem operandsAssembledFromFrame : Obligations.OperandsAssembledFromFrame := by
  constructor
  · intro f hlen h0
    have hne : f ≠ [] := List.length_pos_iff.1 (by omega)
    have hhead : f.head? = some 0x01 := h0 ▸ head?_eq_byteAt_zero hne
    refine ⟨_, _, _, decode_ctrenc_of_length hhead hlen, toInt_secondsAt (by omega), toInt_secondsAt (by omega),
      toInt_secondsAt (by omega), ?_⟩
    have hrange (v : Seconds) : -2 ^ 63 ≤ v.toInt ∧ v.toInt ≤ 2 ^ 63 - 1 :=
      (seconds_range v).imp_right Int.le_sub_one_of_lt
    simp only [List.forall_mem_cons, hrange, List.not_mem_nil, false_implies, implies_true, and_self]
  · intro f keylen hmin h0 hkeylen hlen
    have hhead : f.head? = some 0x02 := h0 ▸ head?_eq_byteAt_zero (List.length_pos_iff.1 (by omega))
    have hk : keylenOf f = keylen := (keylenOf_eq hmin).trans hkeylen.symm
    have hdecode := decode_gen_of_length hhead (by rw [hk, hlen])
    rw [hk] at hdecode
    obtain ⟨hctr, hmax⟩ := decode_gen_fits hdecode
    have hkey : (slice f 13 (13 + keylen)).length = keylen := by
      rw [length_slice_of_le (by omega), Nat.add_sub_cancel_left]
    exact ⟨hdecode, hctr, hkey, hkey ▸ hmax⟩

/-- Settles O17: a decoded frame has one of the two formats, each with its own byte 0. -/
theorem opcodeByteSelectsOperation : Obligations.OpcodeByteSelectsOperation := by
  refine ⟨fun f i h => ?_, fun b rest h1 h2 => decode_of_other rfl h1 h2⟩
  obtain ⟨rest, rfl, -, rfl⟩ | ⟨rest, rfl, -, -, rfl⟩ := decode_ok_cases h
  · exact .inl ⟨rfl, _, _, _, rfl⟩
  · exact .inr ⟨rfl, _, _, _, _, rfl⟩

/-- Settles O33: FINISH sends the digit count and the decimal characters of the truncated digest. -/
theorem finishSendsPaddedCode : Obligations.FinishSendsPaddedCode := by
  intro H s rest alg d n mac macs hT hp hn hr hlen
  obtain rfl := digitsNat_of_mem hn
  refine ⟨decimalChars (digitsNat d) (otpValue d mac), ?_, length_decimalChars _ _, fun i hi => ?_⟩
  · rw [stepWith_of_blocksTurn hT, blockTurn_of_hashWait_cons (s := { s with turns := rest }) hp hr,
      genFinish_of_length d hlen]
    rfl
  · rw [byteAt_decimalChars _ hi, toNat_digit (Nat.mod_lt _ (by decide)), otpValue_eq d hlen]

/-- Settles O53: the three outcomes of the `CTRENC` are the three cases of the line. -/
theorem totpRunsCtrencThenGen : Obligations.TotpRunsCtrencThenGen := by
  intro H last alg key time epoch period digits hkey
  refine ⟨fun h => runTotp_of_error hkey (ctrencOutcome_of_lt h),
    fun h hp => runTotp_of_error hkey (ctrencOutcome_of_nonpos h hp),
    fun h hp => ⟨_, length_beBytes 8 _, ?_, runTotp_of_ok hkey (ctrencOutcome_of_pos h hp) (length_beBytes 8 _)⟩⟩
  rw [ube_beBytes (counterValue_lt time epoch _), counterValue_eq_div h hp]

/-- Settles O6: the placed frame is the head of `REQ`, and the block's turn is the next one. -/
theorem placedTableWordIsExecuted : Obligations.PlacedTableWordIsExecuted := by
  intro s nbits w i h
  have hdecode : decode (tableFrame nbits w) = .ok i := by
    unfold decodeTableWord at h
    cases hd : decode (tableFrame nbits w) with
    | error e => simp [hd, Except.toOption] at h
    | ok j => simpa [hd, Except.toOption] using h
  exact stepRunsDecodedRequest (s.withFetchWord nbits w) s.turns _ s.req i (.inl (placeRequest_turns _ _))
    (placeRequest_phase _ _) (placeRequest_req _ _) hdecode

/-- Settles O19: the table of the selectors is the definition's. -/
theorem selectorCodesAndDigestSizes : Obligations.SelectorCodesAndDigestSizes := ⟨fun _ => rfl, rfl, rfl, rfl⟩

/-- Settles O20: each format fixes its length, `RG` by its digit count. -/
theorem responseFormatsHaveOwnLengths : Obligations.ResponseFormatsHaveOwnLengths := by
  intro f
  refine ⟨fun h => ?_, fun h => ?_, fun h => ?_⟩
  · unfold isErrorFrame at h
    split at h
    · rfl
    · simp at h
  · exact of_decide_eq_true (Bool.and_eq_true_iff.1 h).1
  · unfold isCodeFrame at h
    split at h
    · simp only [Bool.and_eq_true, Bool.or_eq_true, decide_eq_true_eq] at h
      obtain ⟨⟨⟨-, rfl | rfl⟩, hcode⟩, -⟩ := h <;> simp [hcode]
    · simp at h

/-- Settles O51: an omitted operand is read as its default. -/
theorem assemblerDefaults : Obligations.AssemblerDefaults := by
  refine ⟨fun _ _ => rfl, fun _ _ => rfl, fun _ _ => rfl, fun H last alg key count => ?_,
    fun _ _ _ _ _ _ _ _ => ⟨rfl, rfl, rfl⟩⟩
  rw [runLine_hotp, runLine_hotp]
  rfl

/-- Settles O52: a count that fits 8 bytes expands to that `GEN` line. -/
theorem hotpIsGenOfCount : Obligations.HotpIsGenOfCount := by
  intro H last alg key count digits hcount
  rw [runLine_hotp, if_pos hcount]

end Sys2Proof.Machine

/-!
PROOFS of the family 40_counter_codec.md: what `CTRENC` answers. First the one effect of the instruction, then the
counter over one period, then the obligations.
-/

namespace Sys2Proof.Machine

/-! ### The effect of `CTRENC` (40_counter_codec.md R70, R78) -/

section Ctrenc

/-- `CTRENC` sends one response, and the operands alone say which. -/
theorem exec_ctrenc (time epoch period : Seconds) (s : State) :
    exec (.ctrenc time epoch period) s = .next (sendResponse (responseFrame (ctrencOutcome time epoch period)) s) := by
  rw [exec, execCtrenc, conclude_eq]

/-- No time of a period numbered from 0 is before the epoch. -/
theorem epoch_le_of_period_start_le {time epoch period : Int} {q : Nat} (hp : 0 < period)
    (hlow : epoch + q * period ≤ time) : epoch ≤ time := by
  have hstart : 0 ≤ q * period := by positivity
  omega

/-- The counter is the number of the period that the time lies in (40_counter_codec.md R77). -/
theorem counterValue_of_mem_period {time epoch period : Int} {q : Nat} (hp : 0 < period)
    (hlow : epoch + q * period ≤ time) (hhigh : time ≤ epoch + (q + 1) * period - 1) :
    counterValue time epoch period = q := by
  have hquot : (time - epoch) / period = q :=
    Int.le_antisymm (Int.lt_add_one_iff.1 (Int.ediv_lt_of_lt_mul hp (by omega)))
      (Int.le_ediv_of_mul_le hp (by omega))
  exact_mod_cast (counterValue_eq_div (epoch_le_of_period_start_le hp hlow) hp).trans hquot

end Ctrenc

/-! ### The obligations of the family -/

/-- Settles O21: the response is `BE_8` of the counter, which its 8 bytes can hold. -/
theorem ctrencAnswersFloorCounter : Obligations.CtrencAnswersFloorCounter := by
  intro time epoch period s hle hp
  refine ⟨beBytes 8 (counterValue time.toInt epoch.toInt period.toInt), length_beBytes 8 _, ?_, ?_⟩
  · rw [ube_beBytes (counterValue_lt time epoch _), counterValue_eq_div hle hp]
  · rw [exec_ctrenc, ctrencOutcome_of_pos hle hp]
    rfl

/-- Settles O22: the bounds make `q` the counter. -/
theorem ctrencCounterConstantOverStep : Obligations.CtrencCounterConstantOverStep := by
  intro time epoch period q s hp hlow hhigh
  rw [exec_ctrenc, ctrencOutcome_of_pos (epoch_le_of_period_start_le hp hlow) hp,
    counterValue_of_mem_period hp hlow hhigh]
  rfl

/-- Settles O25: sending a response changes `RSP` and the phase only. -/
theorem ctrencFrame : Obligations.CtrencFrame := by
  intro time epoch period s t h
  rw [exec_ctrenc] at h
  obtain rfl := Host.Outcome.next.inj h
  exact ⟨rfl, rfl, rfl, rfl, rfl, _, rfl⟩

/-- Settles O18: the two frames are the encodings of their operations. -/
theorem workedExampleFramesDecode : Obligations.WorkedExampleFramesDecode := by
  constructor
  · calc
      _ = decode (encode (.ctrenc 59 0 30)) := congrArg decode (by decide)
      _ = _ := decode_encode_ctrenc 59 0 30
  · calc
      _ = decode (encode (.gen 0x01 0x06 _ _)) := congrArg decode (by decide)
      _ = _ := decode_encode_gen 0x01 0x06 rfl (by decide)

/-- Settles O23: the times are compared before the period. -/
theorem ctrencTimeBeforeEpochIsInvalidTime : Obligations.CtrencTimeBeforeEpochIsInvalidTime := by
  intro time epoch period s hlt
  rw [exec_ctrenc, ctrencOutcome_of_lt hlt]
  rfl

/-- Settles O24: with the times in order, the period decides. -/
theorem ctrencPeriodNotPositiveIsInvalidConfig : Obligations.CtrencPeriodNotPositiveIsInvalidConfig := by
  intro time epoch period s hle hp
  rw [exec_ctrenc, ctrencOutcome_of_nonpos hle hp]
  rfl

end Sys2Proof.Machine

/-!
PROOFS of the family 41_otp_engine.md: what `GEN` does when it is accepted and when its digest arrives, and what the
oracle's length contract rules out. First the validation and the two effects of the instruction, then the rendering of
the code, then the contract, then the obligations.
-/

namespace Sys2Proof.Machine

/-! ### The validation of `GEN` (41_otp_engine.md R96 to R98, R101) -/

section Validation

variable {alg digits : Byte} {ctr key : Frame} {a : Alg} {d : Digits}

theorem digitCount_eq_none (h6 : digits ≠ 6) (h8 : digits ≠ 8) : digitCount digits = none := by
  rw [digitCount, if_neg h6, if_neg h8]

theorem exists_digitCount (h : digits = 6 ∨ digits = 8) : ∃ d, digitCount digits = some d := by
  obtain rfl | rfl := h
  · exact ⟨.six, rfl⟩
  · exact ⟨.eight, rfl⟩

theorem digitCount_of_mem (h : (digits, d) ∈ [((6 : Byte), Digits.six), (8, .eight)]) : digitCount digits = some d := by
  simp only [List.mem_cons, Prod.mk.injEq, List.not_mem_nil, or_false] at h
  obtain ⟨rfl, rfl⟩ | ⟨rfl, rfl⟩ := h <;> rfl

theorem selector_eq_none (h1 : alg ≠ 0x01) (h2 : alg ≠ 0x02) (h3 : alg ≠ 0x03) : selector alg = none := by
  rw [selector, if_neg h1, if_neg h2, if_neg h3]

theorem exists_selector (h : alg = 0x01 ∨ alg = 0x02 ∨ alg = 0x03) : ∃ a, selector alg = some a := by
  obtain rfl | rfl | rfl := h
  · exact ⟨.sha1, rfl⟩
  · exact ⟨.sha256, rfl⟩
  · exact ⟨.sha512, rfl⟩

theorem selector_of_mem (h : (alg, a) ∈ [((0x01 : Byte), Alg.sha1), (0x02, .sha256), (0x03, .sha512)]) :
    selector alg = some a := by
  simp only [List.mem_cons, Prod.mk.injEq, List.not_mem_nil, or_false] at h
  obtain ⟨rfl, rfl⟩ | ⟨rfl, rfl⟩ | ⟨rfl, rfl⟩ := h <;> rfl

/-- The digit count is tested first. -/
theorem genValidate_of_digitCount_none (hd : digitCount digits = none) :
    genValidate alg digits key = .error .unsupportedDigits := by
  simp only [genValidate, hd]

/-- The selector is tested second. -/
theorem genValidate_of_selector_none (hd : digitCount digits = some d) (ha : selector alg = none) :
    genValidate alg digits key = .error .unsupportedAlgorithm := by
  simp only [genValidate, hd, ha]

/-- The key is tested last. -/
theorem genValidate_nil (hd : digitCount digits = some d) (ha : selector alg = some a) :
    genValidate alg digits [] = .error .invalidConfig := by
  simp only [genValidate, hd, ha, List.length_nil, if_true]

/-- The validation happens before the oracle's answer and does not speak of it. -/
theorem genValidate_ne_hashOracle (alg digits : Byte) (key : Frame) : genValidate alg digits key ≠ .error .hashOracle := by
  cases hd : digitCount digits with
  | none => simp [genValidate_of_digitCount_none hd]
  | some d =>
    cases ha : selector alg with
    | none => simp [genValidate_of_selector_none hd ha]
    | some a =>
      cases key with
      | nil => simp [genValidate_nil hd ha]
      | cons b bs => simp [genValidate_ok_iff.2 ⟨hd, ha, List.cons_ne_nil b bs⟩]

/-- A refused `GEN` sends the one byte of its error. -/
theorem exec_gen_of_error {e : Error} (s : State) (hv : genValidate alg digits key = .error e) :
    exec (.gen alg digits ctr key) s = .next (sendResponse (errorFrame e) s) := by
  simp only [exec, execGen, hv, raise]

/-- A valid `GEN` sends its oracle request and waits. -/
theorem exec_gen_of_ok (s : State) (hv : genValidate alg digits key = .ok (a, d)) :
    exec (.gen alg digits ctr key) s = .next (askOracle { alg := a, key := key, msg := ctr } d s) := by
  simp only [exec, execGen, hv]

end Validation

/-! ### Reduction and rendering (41_otp_engine.md R94, R95) -/

section Rendering

theorem otpValue_lt (d : Digits) (mac : Frame) : otpValue d mac < 10 ^ digitsNat d :=
  Nat.mod_lt _ (Nat.pow_pos (by decide))

/-- The last n of m + n characters are the n characters of the same number. -/
theorem drop_decimalChars (m n v : Nat) : (decimalChars (m + n) v).drop m = decimalChars n v := by
  induction m with
  | zero => rw [Nat.zero_add, List.drop_zero]
  | succ m ih => rw [Nat.add_right_comm, decimalChars, List.drop_succ_cons, ih]

/-- The n characters of a number are those of its last m ≥ n decimal digits. -/
theorem decimalChars_mod {n m : Nat} (v : Nat) (h : n ≤ m) : decimalChars n (v % 10 ^ m) = decimalChars n v := by
  induction n with
  | zero => rfl
  | succ n ih =>
    have hdigit : v % 10 ^ m / 10 ^ n % 10 = v / 10 ^ n % 10 := by
      have hpow : 10 ^ m = 10 ^ n * 10 ^ (m - n) := by rw [← pow_add, Nat.add_sub_cancel' (by omega)]
      rw [hpow, Nat.mod_mul_right_div_self, Nat.mod_mod_of_dvd _ (dvd_pow_self 10 (by omega))]
    rw [decimalChars, decimalChars, hdigit, ih (by omega)]

/-- The characters sent are the last ones of the truncated digest's decimal reading. -/
theorem genFinish_eq_chars_of_snum {alg : Alg} {mac : Frame} (d : Digits) (h : mac.length = digestSize alg) :
    genFinish alg d mac = .ok (BitVec.ofNat 8 (digitsNat d) :: decimalChars (digitsNat d) (truncSnum mac)) := by
  rw [genFinish_of_length d h, decimalChars_mod _ le_rfl]

end Rendering

/-! ### The oracle's length contract (41_otp_engine.md R88, R89; 60_exceptions.md R115) -/

section Contract

variable {H : Oracle} {s t : State}

/-- HMAC ends in its hash function. -/
theorem length_hmac {hash : Frame → Frame} {n : Nat} (h : ∀ m, (hash m).length = n) (B : Nat) (key msg : Frame) :
    (hmac hash B key msg).length = n := h _

/-- HashOracleError alone is answered `[0x05]`. -/
theorem responseFrame_eq_hashOracle_iff {o : Except Error Frame} : responseFrame o = [0x05] ↔ o = .error .hashOracle := by
  cases o with
  | error e => cases e <;> decide
  | ok result => simp [responseFrame, successFrame, statusOk]

theorem ctrencOutcome_ne_hashOracle (time epoch period : Seconds) :
    ctrencOutcome time epoch period ≠ .error .hashOracle := by
  unfold ctrencOutcome
  split
  · simp
  · split <;> simp

/-- A digest of legal length gives a code. -/
theorem responseFrame_genFinish_ne_hashOracle {alg : Alg} {mac : Frame} (d : Digits) (h : mac.length = digestSize alg) :
    responseFrame (genFinish alg d mac) ≠ [0x05] := by
  rw [Ne, responseFrame_eq_hashOracle_iff, genFinish_of_length d h]
  simp

theorem atomicResponse_ne_hashOracle (hH : OracleContract H) (i : Instr) : atomicResponse H i ≠ [0x05] := by
  cases i with
  | ctrenc time epoch period => exact mt responseFrame_eq_hashOracle_iff.1 (ctrencOutcome_ne_hashOracle time epoch period)
  | gen alg digits ctr key =>
    cases hv : genValidate alg digits key with
    | error e =>
      have hframe : responseFrame (.error e) ≠ [0x05] := mt responseFrame_eq_hashOracle_iff.1 fun h =>
        genValidate_ne_hashOracle alg digits key (Except.error.inj h ▸ hv)
      simpa only [atomicResponse, hv, responseFrame] using hframe
    | ok p => simpa only [atomicResponse, hv] using responseFrame_genFinish_ne_hashOracle p.2 (hH p.1 key ctr)

/-- Under the contract `Exec` of no frame is HashOracleError. -/
theorem atomicExec_ne_hashOracle (hH : OracleContract H) (f : Frame) : atomicExec H f ≠ [0x05] := by
  unfold atomicExec
  split
  · decide
  · exact atomicResponse_ne_hashOracle hH _

theorem answersFit_of_idle (hp : s.phase = .idle) : s.answersFit = true := by
  rw [State.answersFit, hp]

theorem answersFit_of_hashWait {alg : Alg} {d : Digits} (hp : s.phase = .hashWait alg d) :
    s.answersFit = true ↔ (∀ r ∈ s.hreq, r.alg = alg) ∧ ∀ mac ∈ s.hrsp, mac.length = digestSize alg := by
  simp [State.answersFit, hp]

theorem count_rsp_sendResponse {r : Frame} (hr : r ≠ [0x05]) (s : State) :
    (sendResponse r s).rsp.count [0x05] = s.rsp.count [0x05] := by
  rw [sendResponse_rsp, List.count_append, List.count_singleton, if_neg (by simpa using hr), Nat.add_zero]

/-- The block's turn adds no HashOracleError: at ACCEPT because of the contract, at FINISH because the answer fits. -/
theorem blockTurn_answersFit (hH : OracleContract H) (hok : s.protocolOk = true) (hfit : s.answersFit = true)
    (hb : blockTurn s = .next t) : t.answersFit = true ∧ t.rsp.count [0x05] = s.rsp.count [0x05] := by
  obtain ⟨-, rfl⟩ | ⟨f, fs, -, -, rfl⟩ | ⟨f, fs, q, d, hp, -, -, -, rfl⟩ | ⟨alg, d, mac, macs, hp, hr, rfl⟩ :=
    blockTurn_next_cases H hb
  · exact ⟨hfit, rfl⟩
  · exact ⟨answersFit_of_idle rfl, count_rsp_sendResponse (atomicExec_ne_hashOracle hH f) _⟩
  · obtain ⟨hreq, hrsp⟩ := (protocolOk_of_idle hp).1 hok
    exact ⟨(answersFit_of_hashWait (askOracle_phase _ q d)).2 (by simp [hreq, hrsp]), rfl⟩
  · have hlen : mac.length = digestSize alg := ((answersFit_of_hashWait hp).1 hfit).2 mac (by simp [hr])
    exact ⟨answersFit_of_idle rfl, count_rsp_sendResponse (responseFrame_genFinish_ne_hashOracle d hlen) _⟩

/-- The oracle's answer has the length that its request's selector demands, which is the waiting one. -/
theorem oracleTurn_answersFit (hH : OracleContract H) (hfit : s.answersFit = true) :
    (oracleTurn H s).answersFit = true := by
  cases hq : s.hreq with
  | nil => rwa [oracleTurn_of_nil hq]
  | cons r rs =>
    rw [oracleTurn_of_cons hq]
    cases hp : s.phase with
    | idle => exact answersFit_of_idle rfl
    | hashWait alg d =>
      obtain ⟨hreq, hrsp⟩ := (answersFit_of_hashWait hp).1 hfit
      rw [hq, List.forall_mem_cons] at hreq
      obtain ⟨rfl, hrs⟩ := hreq
      refine (answersFit_of_hashWait rfl).2 ⟨hrs, List.forall_mem_append.2 ⟨hrsp, ?_⟩⟩
      exact List.forall_mem_singleton.2 (hH r.alg r.key r.msg)

end Contract

/-! ### The obligations of the family -/

/-- Settles O26: the three operands pass the validation. -/
theorem genValidRequestAsksOracle : Obligations.GenValidRequestAsksOracle := by
  intro alg digits a d ctr key s ha hd hkey
  exact exec_gen_of_ok s (genValidate_ok_iff.2 ⟨digitCount_of_mem hd, selector_of_mem ha, hkey⟩)

/-- Settles O27: the first test that fails names the error. -/
theorem genValidationErrors : Obligations.GenValidationErrors := by
  refine ⟨fun alg digits ctr key s h6 h8 => ?_, fun alg digits ctr key s hdigits h1 h2 h3 => ?_,
    fun alg digits ctr s hdigits halg => ?_⟩
  · exact exec_gen_of_error s (genValidate_of_digitCount_none (digitCount_eq_none h6 h8))
  · obtain ⟨d, hd⟩ := exists_digitCount hdigits
    exact exec_gen_of_error s (genValidate_of_selector_none hd (selector_eq_none h1 h2 h3))
  · obtain ⟨d, hd⟩ := exists_digitCount hdigits
    obtain ⟨a, ha⟩ := exists_selector halg
    exact exec_gen_of_error s (genValidate_nil hd ha)

/-- Settles O28: the two cases of `execGen_cases`. -/
theorem genFrame : Obligations.GenFrame := by
  intro alg digits ctr key s t h
  obtain ⟨e, -, rfl⟩ | ⟨a, d, -, rfl⟩ := execGen_cases h
  · exact ⟨rfl, rfl, rfl, .inl ⟨rfl, rfl, errorFrame e, rfl⟩⟩
  · exact ⟨rfl, rfl, rfl, .inr ⟨rfl, a, d, rfl, rfl⟩⟩

/-- Settles O29: a mask of 4 bits on the last byte, in a digest of 20 bytes or more. -/
theorem offsetIsLowNibbleOfLastByte : Obligations.OffsetIsLowNibbleOfLastByte := by
  intro alg mac hlen
  have hoff := truncOffset_le mac
  exact ⟨truncOffset_eq hlen, hoff, by omega, hlen ▸ twenty_le_digestSize alg⟩

/-- Settles O34: FINISH with a digest that `genFinish` refuses. -/
theorem wrongLengthAnswerIsHashOracleError : Obligations.WrongLengthAnswerIsHashOracleError := by
  intro H s rest alg d mac macs hT hp hr hlen
  rw [stepWith_of_blocksTurn hT, blockTurn_of_hashWait_cons (s := { s with turns := rest }) hp hr,
    genFinish_of_wrong_length d hlen]
  rfl

/-- Settles O35: both codes are the last characters of one decimal reading. -/
theorem sixDigitCodeEndsEightDigitCode : Obligations.SixDigitCodeEndsEightDigitCode := by
  intro alg mac hlen
  exact ⟨_, _, genFinish_eq_chars_of_snum .six hlen, genFinish_eq_chars_of_snum .eight hlen, length_decimalChars 6 _,
    length_decimalChars 8 _, drop_decimalChars 2 6 _⟩

/-- Settles O37: the block sends no HashOracleError, the oracle's answers fit, and the host and the reset event only take
responses away. -/
theorem contractExcludesHashOracleError : Obligations.ContractExcludesHashOracleError := by
  intro H s t hH hok hfit hs
  obtain ⟨rest, -, hb⟩ | ⟨rest, -, rfl⟩ | ⟨_, _, -, rfl⟩ | ⟨_, -, rfl⟩ | ⟨_, -, rfl⟩ := stepWith_cases hs
  · exact (blockTurn_answersFit (s := { s with turns := rest }) hH hok hfit hb).imp_right le_of_eq
  · exact ⟨oracleTurn_answersFit (s := { s with turns := rest }) hH hfit, by rw [oracleTurn_rsp]⟩
  · exact ⟨hfit, le_rfl⟩
  · exact ⟨hfit, (List.tail_sublist s.rsp).count_le _⟩
  · exact ⟨rfl, Nat.zero_le _⟩

/-- Settles O4: the definition of `step`. -/
theorem stepUsesConfiguredOracle : Obligations.StepUsesConfiguredOracle := fun _ => rfl

/-- Settles O31: masking with 2^31 − 1 is the remainder mod 2^31, and a masked number is at most its mask. -/
theorem maskKeepsLow31Bits : Obligations.MaskKeepsLow31Bits :=
  fun mac => ⟨truncSnum_eq_mod mac, Nat.and_le_right⟩

/-- Settles O32: the remainders of the two digit counts. -/
theorem reductionModuloPowerOfTen : Obligations.ReductionModuloPowerOfTen :=
  fun mac => ⟨rfl, rfl, Nat.le_sub_one_of_lt (otpValue_lt .six mac), Nat.le_sub_one_of_lt (otpValue_lt .eight mac)⟩

/-- Settles O38: each selector's HMAC ends in its own hash function. -/
theorem intendedOracleKeepsContract : Obligations.IntendedOracleKeepsContract := by
  intro sha1 sha256 sha512 h1 h256 h512 alg key msg
  cases alg with
  | sha1 => exact length_hmac h1 64 key msg
  | sha256 => exact length_hmac h256 64 key msg
  | sha512 => exact length_hmac h512 128 key msg

end Sys2Proof.Machine

/-!
PROOFS of the family 60_exceptions.md: the answer to a frame that does not decode.
-/

namespace Sys2Proof.Machine

/-- A block that is `IDLE` already only gains a response by sending one. -/
theorem sendResponse_of_idle {s : State} (r : Frame) (hp : s.phase = .idle) :
    sendResponse r s = { s with rsp := s.rsp ++ [r] } := by
  rw [sendResponse, ← hp]

/-- ACCEPT of an illegal frame sends `[0xFF]`, whichever row of R54 the frame falls in. -/
theorem acceptFrame_of_illegal {f : Frame} {e : Illegal} (s : State) (hd : decode f = .error e) :
    acceptFrame f s = .next (sendResponse [0xFF] s) := by
  rw [acceptFrame, hd]
  rfl

/-- Settles O15: ACCEPT takes the head of `REQ`, and its refusal leaves the block `IDLE`. -/
theorem illegalFrameAnsweredFF : Obligations.IllegalFrameAnsweredFF := by
  intro s f fs e hp hr hd
  rw [blockTurn_of_idle_cons hp hr, acceptFrame_of_illegal _ hd, sendResponse_of_idle (s := { s with req := fs }) _ hp]

end Sys2Proof.Machine

/-!
PROOFS of the family 70_reset_and_hazards.md: the reset event, what stays as it is in `HASH_WAIT`, and the end of a run.
-/

namespace Sys2Proof.Machine

/-! ### Waiting for the oracle (70_reset_and_hazards.md R142, R143) -/

section HashWait

variable {H : Oracle} {s t : State} {alg : Alg} {d : Digits}

@[simp] theorem oracleTurn_phase (H : Oracle) (s : State) : (oracleTurn H s).phase = s.phase := by
  unfold oracleTurn; split <;> rfl

@[simp] theorem oracleTurn_req (H : Oracle) (s : State) : (oracleTurn H s).req = s.req := by
  unfold oracleTurn; split <;> rfl

/-- In `HASH_WAIT` the block can only FINISH, which does not touch `REQ`. -/
theorem blockTurn_req_of_hashWait (hp : s.phase = .hashWait alg d) (hb : blockTurn s = .next t) : t.req = s.req := by
  obtain ⟨-, rfl⟩ | ⟨f, fs, hi, -⟩ | ⟨f, fs, q, d, hi, -⟩ | ⟨alg, d, mac, macs, -, -, rfl⟩ :=
    blockTurn_next_cases (fun _ _ _ => []) hb
  · rfl
  · simp [hp] at hi
  · simp [hp] at hi
  · rfl

theorem stepWith_req_of_hashWait (hp : s.phase = .hashWait alg d) (hn : s.resetting = false)
    (hs : stepWith H s = .next t) : t.req = s.req ++ s.submitting := by
  obtain ⟨rest, hT, hb⟩ | ⟨rest, hT, rfl⟩ | ⟨rest, f, hT, rfl⟩ | ⟨rest, hT, rfl⟩ | ⟨rest, hT, rfl⟩ := stepWith_cases hs
  · have hreq : t.req = s.req := blockTurn_req_of_hashWait (s := { s with turns := rest }) hp hb
    rw [hT.host_idle.1, List.append_nil, hreq]
  · simp [State.submitting, hT]
  · simp [State.submitting, hT]
  · simp [State.submitting, hT]
  · simp [State.resetting, hT] at hn

/-- The block waits for an answer that no turn listed can bring, and no reset event can end the wait. -/
structure State.WaitsForEver (s : State) (alg : Alg) (d : Digits) : Prop where
  phase : s.phase = .hashWait alg d
  hrsp : s.hrsp = []
  no_oracle : Turn.oracle ∉ s.turns
  no_reset : Turn.reset ∉ s.turns

theorem State.WaitsForEver.resetting (h : s.WaitsForEver alg d) : s.resetting = false :=
  decide_eq_false fun hr => h.no_reset (List.mem_of_mem_head? hr)

/-- A step leaves the phase and `HRSP` alone: the block has no step enabled, and the host touches neither. -/
theorem State.WaitsForEver.step (h : s.WaitsForEver alg d) (hs : stepWith H s = .next t) : t.WaitsForEver alg d := by
  have htail : ∀ {a : Turn}, a ∉ s.turns → a ∉ t.turns := fun ha ht =>
    ha (List.mem_of_mem_tail (stepWith_turns hs ▸ ht))
  have hkeep : t.phase = s.phase ∧ t.hrsp = s.hrsp := by
    obtain ⟨rest, -, hb⟩ | ⟨rest, hT, -⟩ | ⟨rest, f, -, rfl⟩ | ⟨rest, -, rfl⟩ | ⟨rest, hT, -⟩ := stepWith_cases hs
    · have hd : ({ s with turns := rest } : State).blockEnabled = false :=
        blockEnabled_eq_false_iff.2 (.inr ⟨alg, d, h.phase, h.hrsp⟩)
      rw [blockTurn_of_disabled hd] at hb
      cases hb
      exact ⟨rfl, rfl⟩
    · exact absurd (hT ▸ List.mem_cons_self) h.no_oracle
    · exact ⟨rfl, rfl⟩
    · exact ⟨rfl, rfl⟩
    · exact absurd (hT ▸ List.mem_cons_self) h.no_reset
  exact ⟨hkeep.1.trans h.phase, hkeep.2.trans h.hrsp, htail h.no_oracle, htail h.no_reset⟩

/-- However long the run, the block still waits and no request has left `REQ`. -/
theorem State.WaitsForEver.run (H : Oracle) (n : Nat) (h : s.WaitsForEver alg d) :
    ∃ t, runWith H n s = .next t ∧ t.WaitsForEver alg d ∧ s.req <+: t.req := by
  induction n generalizing s with
  | zero => exact ⟨s, rfl, h, List.prefix_refl _⟩
  | succ n ih =>
    obtain ⟨u, hu⟩ := stepWith_next H s
    obtain ⟨t, hrun, hwait, hreq⟩ := ih (h.step hu)
    have hstep : s.req <+: u.req := ⟨_, (stepWith_req_of_hashWait h.phase h.resetting hu).symm⟩
    exact ⟨t, (runWith_succ hu).trans hrun, hwait, hstep.trans hreq⟩

end HashWait

/-! ### The obligations of the family -/

/-- Settles O8: in `HASH_WAIT` no agent but the host touches `REQ`. -/
theorem noRequestAcceptedInHashWait : Obligations.NoRequestAcceptedInHashWait :=
  fun _ _ _ _ _ hp hn hs => stepWith_req_of_hashWait hp hn hs

/-- Settles O45: when `IDLE`, only a waiting request can enable a step; in `HASH_WAIT` a request out enables the oracle
and an answer waiting enables the block. -/
theorem runOverIffNothingEnabled : Obligations.RunOverIffNothingEnabled := by
  intro s h
  rw [quiescent_iff]
  cases hp : s.phase with
  | idle =>
    obtain ⟨hq, hr⟩ := (protocolOk_of_idle hp).1 h
    simp [State.blockEnabled, State.oracleEnabled, hp, hq, hr]
  | hashWait alg d =>
    obtain ⟨r, hq, -, -⟩ | ⟨-, mac, hr⟩ := (protocolOk_of_hashWait hp).1 h
    · simp [State.oracleEnabled, hq]
    · simp [State.blockEnabled, hp, hr]

/-- Settles O50: the wait is kept by every step, so it holds after any number of them. -/
theorem noTimeOut : Obligations.NoTimeOut := by
  intro H s n alg d hp hr ho hn
  obtain ⟨t, hrun, hwait, hreq⟩ := State.WaitsForEver.run H n ⟨hp, hr, ho, hn⟩
  exact ⟨t, hrun, hwait.phase, hreq⟩

/-- Settles O2: the fields of the state after the reset event. -/
theorem resetEventEmptiesInstance : Obligations.ResetEventEmptiesInstance := fun s =>
  ⟨resetInstance_phase s, resetInstance_req s, resetInstance_rsp s, resetInstance_hreq s, resetInstance_hrsp s⟩

end Sys2Proof.Machine

/-!
PROOFS of the family other: no step stops the machine. The case split by whose turn it is stands with the facts about
one turn of one agent (`stepWith_next`, `blockTurn_next`).
-/

namespace Sys2Proof.Machine

/-- Settles O7: the block's turn always answers a next state (`blockTurn_next`: a bad frame, a bad operand and a bad mac
are each answered by a response, 60_exceptions.md R118), and every other agent's turn does by its definition. -/
theorem everyStepAnswersNext : Obligations.EveryStepAnswersNext := stepWith_next

end Sys2Proof.Machine
